-- ==== Sys2Proof/Word.lean ====
section
/-! DEFINITION. The word and byte types of the machine (spec 00_scope.md R204 to R206). -/

namespace Sys2Proof

/-- A 16-bit pattern: a register, the PC, the IR, a memory word, an address, a character (R204, R206). -/
abbrev Word := BitVec 16

/-- Half of a word as the object image writes it (R35); no instruction can address one. -/
abbrev Byte := BitVec 8

end Sys2Proof
end

