-- ==== Sys2Proof/Syntax.lean ====
section
/-! DEFINITION. The instructions as data: register names, opcode names, and one constructor per row of
spec/opcode_table.json (spec 30_encoding.md R52, R53). -/

namespace Sys2Proof

/-- The eight general registers (R10). -/
inductive Reg where
  | r0 | r1 | r2 | r3 | r4 | r5 | r6 | r7
  deriving DecidableEq, Repr

/-- The sixteen opcode names that a 4-bit opcode selects (R54). JSR and JSRR share one; `reserved` is the opcode
without an operation. -/
inductive Opcode where
  | br | add | ld | st | jsr | and | ldr | str | rti | not | ldi | sti | jmp | reserved | lea | trap
  deriving DecidableEq, Repr

/-- One constructor per row of the opcode table. Fields are those of R52; ignored bits are no field (R57). -/
inductive Instr where
  /-- ADD, register mode (R90). -/
  | addReg (dr sr1 sr2 : Reg)
  /-- ADD, immediate mode (R91). -/
  | addImm (dr sr1 : Reg) (imm5 : BitVec 5)
  /-- AND, register mode (R92). -/
  | andReg (dr sr1 sr2 : Reg)
  /-- AND, immediate mode (R93). -/
  | andImm (dr sr1 : Reg) (imm5 : BitVec 5)
  /-- NOT (R94). -/
  | not (dr sr1 : Reg)
  /-- LEA (R95). -/
  | lea (dr : Reg) (off9 : BitVec 9)
  /-- LD (R100). -/
  | ld (dr : Reg) (off9 : BitVec 9)
  /-- LDI (R101). -/
  | ldi (dr : Reg) (off9 : BitVec 9)
  /-- LDR (R102). -/
  | ldr (dr base : Reg) (off6 : BitVec 6)
  /-- ST (R103). -/
  | st (sr : Reg) (off9 : BitVec 9)
  /-- STI (R104). -/
  | sti (sr : Reg) (off9 : BitVec 9)
  /-- STR (R105). -/
  | str (sr base : Reg) (off6 : BitVec 6)
  /-- BR with its three condition-select bits (R110). -/
  | br (n z p : Bool) (off9 : BitVec 9)
  /-- JMP (R111). -/
  | jmp (base : Reg)
  /-- JSR (R112). -/
  | jsr (off11 : BitVec 11)
  /-- JSRR (R113). -/
  | jsrr (base : Reg)
  /-- TRAP, the table's general row, its vector not yet resolved (R120). -/
  | trap (vector : BitVec 8)
  /-- TRAP 0x20 (R121). -/
  | getc
  /-- TRAP 0x21 (R122). -/
  | out
  /-- TRAP 0x22 (R123). -/
  | puts
  /-- TRAP 0x23, the table's IN (R124). -/
  | inChar
  /-- TRAP 0x24 (R125). -/
  | putsp
  /-- TRAP 0x25 (R126). -/
  | halt
  /-- TRAP with any other vector, the table's TRAP_other (R127). -/
  | trapOther (vector : BitVec 8)
  /-- RTI (R128). -/
  | rti
  /-- The reserved opcode, the table's RES (R129). -/
  | res
  deriving DecidableEq, Repr

end Sys2Proof
end

