-- ==== Sys2Proof/WellFormed.lean ====
section
/-! DEFINITION. Which instructions are well formed: those in which a trap vector stands under the table's row for it.
Register numbers and fields have their exact widths in their types, so nothing else needs a check (spec 30_encoding.md
R52, R59, R61). -/

namespace Sys2Proof

/-- A vector that selects none of the six named routines (R59, R127). -/
def isOtherVector (v : BitVec 8) : Bool := decide (v.toNat < 0x20) || decide (0x25 < v.toNat)

/-- The instructions that the whole decode procedure of R61 can select. The general TRAP row is not one of them:
its vector is always resolved to a routine or to TRAP_other (assumption log 20). -/
def WellFormed : Instr → Bool
  | .addReg _ _ _ => true
  | .addImm _ _ _ => true
  | .andReg _ _ _ => true
  | .andImm _ _ _ => true
  | .not _ _ => true
  | .lea _ _ => true
  | .ld _ _ => true
  | .ldi _ _ => true
  | .ldr _ _ _ => true
  | .st _ _ => true
  | .sti _ _ => true
  | .str _ _ _ => true
  | .br _ _ _ _ => true
  | .jmp _ => true
  | .jsr _ => true
  | .jsrr _ => true
  | .trap _ => false
  | .getc => true
  | .out => true
  | .puts => true
  | .inChar => true
  | .putsp => true
  | .halt => true
  | .trapOther v => isOtherVector v
  | .rti => true
  | .res => true

end Sys2Proof
end

