-- ==== Sys2Proof/Decode.lean ====
section
/-! DEFINITION. The decoder, total on all 65,536 words and rejecting none (spec 30_encoding.md R58, R61), and after it
the encoder, both written from the fields of R52, the formats of R53, the opcode numbers of R54 and the branch bits of
R56. -/

namespace Sys2Proof

/-- The parameter OPCODE_MAP (R54, D1). PRESUMED: the spec takes the numbers from general knowledge; unsafe
(assumption log 1). -/
def opcodeMap (b : BitVec 4) : Opcode :=
  match b.toNat with
  | 0x0 => .br
  | 0x1 => .add
  | 0x2 => .ld
  | 0x3 => .st
  | 0x4 => .jsr
  | 0x5 => .and
  | 0x6 => .ldr
  | 0x7 => .str
  | 0x8 => .rti
  | 0x9 => .not
  | 0xA => .ldi
  | 0xB => .sti
  | 0xC => .jmp
  | 0xD => .reserved
  | 0xE => .lea
  | _ => .trap

/-- The same table, read the other way (R54). -/
def opcodeBits : Opcode → BitVec 4
  | .br => 0x0
  | .add => 0x1
  | .ld => 0x2
  | .st => 0x3
  | .jsr => 0x4
  | .and => 0x5
  | .ldr => 0x6
  | .str => 0x7
  | .rti => 0x8
  | .not => 0x9
  | .ldi => 0xA
  | .sti => 0xB
  | .jmp => 0xC
  | .reserved => 0xD
  | .lea => 0xE
  | .trap => 0xF

/-- The register that a 3-bit number names (R10, R52). -/
def Reg.ofBits (b : BitVec 3) : Reg :=
  match b.toNat with
  | 0 => .r0
  | 1 => .r1
  | 2 => .r2
  | 3 => .r3
  | 4 => .r4
  | 5 => .r5
  | 6 => .r6
  | _ => .r7

/-- The 3-bit number of a register (R10, R52). -/
def Reg.bits : Reg → BitVec 3
  | .r0 => 0
  | .r1 => 1
  | .r2 => 2
  | .r3 => 3
  | .r4 => 4
  | .r5 => 5
  | .r6 => 6
  | .r7 => 7

/-! The fields of R52, by name. -/

/-- `ir[15:12]`. -/
def opcodeField (w : Word) : BitVec 4 := w.extractLsb' 12 4
/-- DR, and SR of the stores: `ir[11:9]`. -/
def drField (w : Word) : Reg := Reg.ofBits (w.extractLsb' 9 3)
/-- SR1 and BaseR: `ir[8:6]`. -/
def sr1Field (w : Word) : Reg := Reg.ofBits (w.extractLsb' 6 3)
/-- SR2: `ir[2:0]`. -/
def sr2Field (w : Word) : Reg := Reg.ofBits (w.extractLsb' 0 3)
/-- imm5: `ir[4:0]`. -/
def imm5Field (w : Word) : BitVec 5 := w.extractLsb' 0 5
/-- offset6: `ir[5:0]`. -/
def off6Field (w : Word) : BitVec 6 := w.extractLsb' 0 6
/-- PCoffset9: `ir[8:0]`. -/
def off9Field (w : Word) : BitVec 9 := w.extractLsb' 0 9
/-- PCoffset11: `ir[10:0]`. -/
def off11Field (w : Word) : BitVec 11 := w.extractLsb' 0 11
/-- trapvect8: `ir[7:0]`. -/
def vectorField (w : Word) : BitVec 8 := w.extractLsb' 0 8
/-- M, the immediate-mode selector: `ir[5]`. -/
def immediateBit (w : Word) : Bool := w.getLsbD 5
/-- L, the JSR mode: `ir[11]`. -/
def jsrModeBit (w : Word) : Bool := w.getLsbD 11

/-! The parameter BR_COND_BITS (R56, D2). PRESUMED: the spec takes the order from general knowledge; unsafe (assumption
log 2). -/

/-- n, tests CC = N: `ir[11]`. -/
def nBit (w : Word) : Bool := w.getLsbD 11
/-- z, tests CC = Z: `ir[10]`. -/
def zBit (w : Word) : Bool := w.getLsbD 10
/-- p, tests CC = P: `ir[9]`. -/
def pBit (w : Word) : Bool := w.getLsbD 9

/-- What `ir[15:12]`, `ir[5]` and `ir[11]` select (R51, R61); a TRAP keeps its vector. -/
def decodeOpcode (w : Word) : Instr :=
  match opcodeMap (opcodeField w) with
  | .br => .br (nBit w) (zBit w) (pBit w) (off9Field w)
  | .add =>
    if immediateBit w then .addImm (drField w) (sr1Field w) (imm5Field w)
    else .addReg (drField w) (sr1Field w) (sr2Field w)
  | .ld => .ld (drField w) (off9Field w)
  | .st => .st (drField w) (off9Field w)
  | .jsr => if jsrModeBit w then .jsr (off11Field w) else .jsrr (sr1Field w)
  | .and =>
    if immediateBit w then .andImm (drField w) (sr1Field w) (imm5Field w)
    else .andReg (drField w) (sr1Field w) (sr2Field w)
  | .ldr => .ldr (drField w) (sr1Field w) (off6Field w)
  | .str => .str (drField w) (sr1Field w) (off6Field w)
  | .rti => .rti
  | .not => .not (drField w) (sr1Field w)
  | .ldi => .ldi (drField w) (off9Field w)
  | .sti => .sti (drField w) (off9Field w)
  | .jmp => .jmp (sr1Field w)
  | .reserved => .res
  | .lea => .lea (drField w) (off9Field w)
  | .trap => .trap (vectorField w)

/-- The table's row that a trap vector selects (R59, R61, R120). -/
def trapRow (v : BitVec 8) : Instr :=
  match v.toNat with
  | 0x20 => .getc
  | 0x21 => .out
  | 0x22 => .puts
  | 0x23 => .inChar
  | 0x24 => .putsp
  | 0x25 => .halt
  | _ => .trapOther v

/-- The further split of TRAP by `ir[7:0]` (R51); every other instruction is selected already. -/
def resolveTrap : Instr → Instr
  | .trap v => trapRow v
  | i => i

/-- The decode procedure of R61: total, deterministic, and no arm refuses (R58). -/
def decode (w : Word) : Instr := resolveTrap (decodeOpcode w)

/-- The opcode of an instruction (R54). -/
def Instr.opcode : Instr → Opcode
  | .addReg _ _ _ => .add
  | .addImm _ _ _ => .add
  | .andReg _ _ _ => .and
  | .andImm _ _ _ => .and
  | .not _ _ => .not
  | .lea _ _ => .lea
  | .ld _ _ => .ld
  | .ldi _ _ => .ldi
  | .ldr _ _ _ => .ldr
  | .st _ _ => .st
  | .sti _ _ => .sti
  | .str _ _ _ => .str
  | .br _ _ _ _ => .br
  | .jmp _ => .jmp
  | .jsr _ => .jsr
  | .jsrr _ => .jsr
  | .trap _ => .trap
  | .getc => .trap
  | .out => .trap
  | .puts => .trap
  | .inChar => .trap
  | .putsp => .trap
  | .halt => .trap
  | .trapOther _ => .trap
  | .rti => .rti
  | .res => .reserved

/-- The twelve low bits of an instruction's word (R53). Ignored bits get the conventional values that R57 names: ones
in NOT, zeros elsewhere (assumption log 24). -/
def Instr.lowBits : Instr → BitVec 12
  | .addReg dr sr1 sr2 => dr.bits ++ sr1.bits ++ (0 : BitVec 3) ++ sr2.bits
  | .addImm dr sr1 imm5 => dr.bits ++ sr1.bits ++ (1 : BitVec 1) ++ imm5
  | .andReg dr sr1 sr2 => dr.bits ++ sr1.bits ++ (0 : BitVec 3) ++ sr2.bits
  | .andImm dr sr1 imm5 => dr.bits ++ sr1.bits ++ (1 : BitVec 1) ++ imm5
  | .not dr sr1 => dr.bits ++ sr1.bits ++ (0x3F : BitVec 6)
  | .lea dr off9 => dr.bits ++ off9
  | .ld dr off9 => dr.bits ++ off9
  | .ldi dr off9 => dr.bits ++ off9
  | .ldr dr base off6 => dr.bits ++ base.bits ++ off6
  | .st sr off9 => sr.bits ++ off9
  | .sti sr off9 => sr.bits ++ off9
  | .str sr base off6 => sr.bits ++ base.bits ++ off6
  | .br n z p off9 => BitVec.ofBool n ++ BitVec.ofBool z ++ BitVec.ofBool p ++ off9
  | .jmp base => (0 : BitVec 3) ++ base.bits ++ (0 : BitVec 6)
  | .jsr off11 => (1 : BitVec 1) ++ off11
  | .jsrr base => (0 : BitVec 3) ++ base.bits ++ (0 : BitVec 6)
  | .trap v => (0 : BitVec 4) ++ v
  | .getc => 0x020
  | .out => 0x021
  | .puts => 0x022
  | .inChar => 0x023
  | .putsp => 0x024
  | .halt => 0x025
  | .trapOther v => (0 : BitVec 4) ++ v
  | .rti => 0
  | .res => 0

/-- The canonical word of an instruction (R53, R54). -/
def encode (i : Instr) : Word := opcodeBits i.opcode ++ i.lowBits

/-- The decoder on an instruction given by its bits as the opcode table numbers them: an instruction is one 16-bit
word, so bits above 15 belong to none (R50). -/
def decodeTableWord (nbits w : Nat) : Option Instr :=
  if nbits ≤ 16 ∧ w < 65536 then some (decode (BitVec.ofNat 16 w)) else none

end Sys2Proof
end

