-- ==== Sys2Proof/Config.lean ====
section
/-! DEFINITION. What is fixed for one machine and open in the spec: the two fixed texts of rule R204, as free values
without a body, so that no proof can see them (assumption log 14). -/

namespace Sys2Proof

/-- IN_PROMPT: the fixed character sequence IN writes first; its text is in no source (R124, D12). Free value. -/
opaque Config.inPrompt : List Word

/-- HALT_BANNER: the fixed character sequence HALT writes; its text is in no source (R126, D12). Free value. -/
opaque Config.haltBanner : List Word

end Sys2Proof
end

