-- ==== Sys2Proof/Machine/State.lean ====
section
/-! DEFINITION. The state of the machine as plain data, the reasons a step can stop, and the state after reset
(spec 10_state.md, 44_trap_system.md R130, 70_reset_and_hazards.md R160). -/

namespace Sys2Proof.Machine

/-- The condition code, always exactly one of three values (R14). -/
inductive CC where
  | n | z | p
  deriving DecidableEq, Repr

/-- The register file: eight cells, none hard-wired (R10). -/
structure RegFile where
  r0 : Word
  r1 : Word
  r2 : Word
  r3 : Word
  r4 : Word
  r5 : Word
  r6 : Word
  r7 : Word
  deriving DecidableEq, Repr

/-- The memory of 65,536 words (R18), held as its non-zero bytes in rising order of position: word `a` has its high
byte at position `2a` and its low byte at `2a + 1` (DESIGN CHOICE, safe: assumption log 9). -/
abbrev Memory := List Host.Cell

/-- Why a step stops. -/
inductive Fault where
  /-- Raised by `step` alone, when `halted` is set: the core has no step and the run is over (R85, D13; assumption
  log 15). Safe: the machine changes nothing and stops where the spec defines no step. -/
  | halted
  deriving DecidableEq, Repr

/-- Why the model gives an instruction no meaning. -/
inductive Refusal where
  /-- Raised by an arm of `exec` for an instruction without a meaning in the model; no arm raises it now. Safe: the
  model stops. -/
  | notModelled (mnemonic : String)
  deriving DecidableEq, Repr

/-- Everything the spec gives the machine (R10 to R22, R130), and two fields of the model's own. -/
structure State where
  /-- `R0` .. `R7` (R10). -/
  regs : RegFile
  /-- The program counter, a word address (R12). -/
  pc : Word
  /-- The instruction register (R13). -/
  ir : Word
  /-- The condition code (R14). -/
  cc : CC
  /-- Set by HALT, cleared only by a reset (R16). -/
  halted : Bool
  /-- Host-owned: no step reads or writes it (R17). -/
  paused : Bool
  /-- `memory[0..0xFFFF]` (R18). -/
  mem : Memory
  /-- Host-owned: the addresses whose breakpoint flag is set, rising (R19). -/
  breakpoints : List Nat
  /-- Host-owned: the labels attached to slots, by rising address (R19). -/
  labels : List (Nat × String)
  /-- The keyboard port: key values delivered and not yet consumed, oldest first (R130). -/
  keys : List Word
  /-- The display port: every value written since reset, oldest first (R130). -/
  display : List Word
  /-- The model's own: the last model step ended inside a step of the core that is not finished (R88, R89; assumption
  log 11). -/
  unfinished : Bool
  /-- The model's own: the unfinished IN step has written its prompt (R124, R143; assumption log 12). -/
  prompted : Bool
  deriving DecidableEq, Repr

/-- The values that the spec leaves OPEN at reset (R22, R204: RESET_REGS, RESET_CC, RESET_IR, INIT_MEM; D3 to D7,
D11), and the PC before the first load. -/
structure OpenReset where
  regs : RegFile
  pc : Word
  ir : Word
  cc : CC
  paused : Bool
  mem : Memory
  breakpoints : List Nat
  labels : List (Nat × String)
  keys : List Word
  deriving DecidableEq, Repr

/-- Step 1 of R160 for any choice of the OPEN values: `halted` is 0 (D6) and the output is empty (D20). -/
def State.resetOf (o : OpenReset) : State where
  regs := o.regs
  pc := o.pc
  ir := o.ir
  cc := o.cc
  halted := false
  paused := o.paused
  mem := o.mem
  breakpoints := o.breakpoints
  labels := o.labels
  keys := o.keys
  display := []
  unfinished := false
  prompted := false

/-- The model's choice of the OPEN values: zero, CC = Z, nothing set, nothing typed (DESIGN CHOICE, unsafe: assumption
log 3 to 8, 10, 21). -/
def OpenReset.zero : OpenReset where
  regs := ⟨0, 0, 0, 0, 0, 0, 0, 0⟩
  pc := 0
  ir := 0
  cc := .z
  paused := false
  mem := []
  breakpoints := []
  labels := []
  keys := []

/-- The machine right after reset, with the model's choice of the OPEN values (R22, R160). -/
def State.reset : State := State.resetOf .zero

end Sys2Proof.Machine
end

