-- ==== Sys2Proof/Machine/Flags.lean ====
section
/-! DEFINITION. The condition code: what a result sets it to (spec 10_state.md R15) and when a branch matches it
(spec 43_control.md R110). -/

namespace Sys2Proof.Machine

/-- The value CC takes from a 16-bit result (R15). -/
def ccOf (v : Word) : CC :=
  if v = 0 then .z else if v.getLsbD 15 then .n else .p

/-- Whether a condition-select bit that is set matches the current CC (R110). -/
def condMatches (n z p : Bool) : CC → Bool
  | .n => n
  | .z => z
  | .p => p

end Sys2Proof.Machine
end

