-- ==== Sys2Proof/Machine/Ops.lean ====
section
/-! DEFINITION. The named operations over registers, memory and the two ports, through which every instruction reads
and writes the state, and the two ends of a step: fetch, and what an unfinished step leaves. There is no exception
entry or return to define: the machine raises no exception and TRAP saves nothing (spec 60_exceptions.md R140, R143,
R144). -/

namespace Sys2Proof.Machine

/-! ## Registers (R10) -/

/-- The value of a register. -/
def RegFile.get (f : RegFile) : Reg → Word
  | .r0 => f.r0
  | .r1 => f.r1
  | .r2 => f.r2
  | .r3 => f.r3
  | .r4 => f.r4
  | .r5 => f.r5
  | .r6 => f.r6
  | .r7 => f.r7

/-- The file after a write; no register discards one. -/
def RegFile.set (f : RegFile) (r : Reg) (v : Word) : RegFile :=
  match r with
  | .r0 => { f with r0 := v }
  | .r1 => { f with r1 := v }
  | .r2 => { f with r2 := v }
  | .r3 => { f with r3 := v }
  | .r4 => { f with r4 := v }
  | .r5 => { f with r5 := v }
  | .r6 => { f with r6 := v }
  | .r7 => { f with r7 := v }

/-- `x[i]` of R207. -/
def State.reg (s : State) (r : Reg) : Word := s.regs.get r

/-- `x[i] <- v` of R207. -/
def State.setReg (s : State) (r : Reg) (v : Word) : State := { s with regs := s.regs.set r v }

/-- A register result with its condition code, of the seven instructions of R14. -/
def State.writeResult (s : State) (r : Reg) (v : Word) : State :=
  { s.setReg r v with cc := ccOf v }

/-! ## Memory (R18, R30 to R34)

The list is in one canonical form: positions rise strictly, lie below 131,072, and no entry equals what an unlisted
position reads as. -/

/-- How many byte positions 65,536 words take. -/
def Memory.size : Nat := 131072

/-- What an unlisted position reads as (DESIGN CHOICE, unsafe: assumption log 8). -/
def Memory.unlisted : Byte := 0

/-- Canonical form from position `lo` up. -/
def Memory.wfFrom : Nat → Memory → Bool
  | _, [] => true
  | lo, (k, b) :: rest =>
    decide (lo ≤ k) && decide (k < Memory.size) && (b != Memory.unlisted) && Memory.wfFrom (k + 1) rest

/-- The canonical form of memory. -/
def Memory.wf (m : Memory) : Bool := Memory.wfFrom 0 m

/-- The byte at a position. -/
def Memory.readByte : Memory → Nat → Byte
  | [], _ => Memory.unlisted
  | (k, b) :: rest, q => if k = q then b else Memory.readByte rest q

/-- One entry in front of a tail, unless an unlisted position reads the same. -/
def Memory.entry (q : Nat) (b : Byte) (rest : Memory) : Memory :=
  if b = Memory.unlisted then rest else (q, b) :: rest

/-- The memory after a byte is written; writing what an unlisted position reads as removes the entry. -/
def Memory.writeByte : Memory → Nat → Byte → Memory
  | [], q, v => Memory.entry q v []
  | (k, b) :: rest, q, v =>
    if k < q then (k, b) :: Memory.writeByte rest q v
    else if k = q then Memory.entry q v rest
    else Memory.entry q v ((k, b) :: rest)

/-- The position of a word's high byte; its low byte follows (assumption log 9). -/
def Memory.position (a : Word) : Nat := 2 * a.toNat

/-- The high byte of a word. -/
def highByte (v : Word) : Byte := v.extractLsb' 8 8

/-- The low byte of a word. -/
def lowByte (v : Word) : Byte := v.extractLsb' 0 8

/-- `256 * first + second` (R35, R44). -/
def wordOfBytes (hi lo : Byte) : Word := hi ++ lo

/-- `MemRead(addr, 1)` (R32). -/
def Memory.read (m : Memory) (a : Word) : Word :=
  wordOfBytes (m.readByte (Memory.position a)) (m.readByte (Memory.position a + 1))

/-- `MemWrite(addr, 1, v)` (R33). -/
def Memory.write (m : Memory) (a : Word) (v : Word) : Memory :=
  (m.writeByte (Memory.position a) (highByte v)).writeByte (Memory.position a + 1) (lowByte v)

/-- The word of memory at an address. -/
def State.memRead (s : State) (a : Word) : Word := s.mem.read a

/-- The state after a word is stored. -/
def State.memWrite (s : State) (a : Word) (v : Word) : State := { s with mem := s.mem.write a v }

/-! ## The ports (R130) -/

/-- `CharOut` for each value of a sequence, in order. -/
def State.charsOut (s : State) (vs : List Word) : State := { s with display := s.display ++ vs }

/-- `CharOut(v)`. -/
def State.charOut (s : State) (v : Word) : State := s.charsOut [v]

/-- `KeyIn()`: the oldest pending key and the state without it, or none while no key is available. -/
def State.keyIn (s : State) : Option (Word × State) :=
  match s.keys with
  | [] => none
  | k :: ks => some (k, { s with keys := ks })

/-- IN's prompt, written once per IN step however long the step waits (R124, R143). -/
def State.promptOnce (s : State) : State :=
  if s.prompted then s else { s.charsOut Config.inPrompt with prompted := true }

/-- The step of the core is not finished in this model step (R88, R89; assumption log 11). -/
def State.suspend (s : State) : State := { s with unfinished := true }

/-! ## The string walk of PUTS (R123) -/

/-- The non-zero words from address `a` on, at most `fuel` of them, and whether a zero word ended them. The address
wraps from 0xFFFF to 0x0000 (R34). -/
def Memory.stringFrom (m : Memory) : Nat → Word → List Word × Bool
  | 0, _ => ([], false)
  | fuel + 1, a =>
    if m.read a = 0 then ([], true)
    else
      match m.stringFrom fuel (a + 1) with
      | (ws, ended) => (m.read a :: ws, ended)

/-- One lap of the address space: a walk of this many words without a zero word finds none ever (D14). -/
def Memory.lap : Nat := 65536

/-- The string at an address: its words, and whether it has a terminating zero word. -/
def Memory.stringAt (m : Memory) (a : Word) : List Word × Bool := m.stringFrom Memory.lap a

/-! ## The two ends of a step (R80 to R82) -/

/-- Fetch and PC increment: `ir <- MemRead(pc, 1); pc <- pc + 1` (R81, R82). A new attempt at a step begins, so the
mark of an unfinished one goes. -/
def State.fetch (s : State) : State :=
  { s with ir := s.memRead s.pc, pc := s.pc + 1, unfinished := false }

/-- What a model step leaves, from the state before it and the state its instruction leaves: an unfinished step has
changed neither PC nor IR (R88, R143), so the next model step takes it up again. -/
def State.settle (before after : State) : State :=
  if after.unfinished then { after with pc := before.pc, ir := before.ir } else after

end Sys2Proof.Machine
end

