-- ==== Sys2Proof/Machine/Operands.lean ====
section
/-! DEFINITION. The operand forms: sign extension (spec 30_encoding.md R55), the second ALU operand, and the three
effective addresses (spec 42_load_store.md R106). All sums wrap modulo 2^16 (R34). -/

namespace Sys2Proof.Machine

/-- `sext_n` for the widths 5, 6, 9 and 11 (R55). -/
def sext {n : Nat} (x : BitVec n) : Word := x.signExtend 16

/-- `ea_pc`: the incremented PC plus PCoffset9; also the pointer's address of LDI and STI (R106). -/
def State.eaPc (s : State) (off9 : BitVec 9) : Word := s.pc + sext off9

/-- `ea_ind`: the pointer word at `ea_pc` (R106). -/
def State.eaInd (s : State) (off9 : BitVec 9) : Word := s.memRead (s.eaPc off9)

/-- `ea_base`: a base register plus offset6 (R106). -/
def State.eaBase (s : State) (base : Reg) (off6 : BitVec 6) : Word := s.reg base + sext off6

/-- The incremented PC plus PCoffset11, the target of JSR (R112). -/
def State.eaPc11 (s : State) (off11 : BitVec 11) : Word := s.pc + sext off11

end Sys2Proof.Machine
end

