-- ==== Sys2Proof/Machine/LoadStore.lean ====
section
/-! DEFINITION. The loads LD, LDI, LDR and the stores ST, STI, STR (spec 42_load_store.md). Loads set CC from the word
loaded, stores leave CC alone (R14, R107). -/

namespace Sys2Proof.Machine

/-- LD (R100). -/
def execLd (dr : Reg) (off9 : BitVec 9) (s : State) : Host.Outcome State Fault Refusal :=
  .next (s.writeResult dr (s.memRead (s.eaPc off9)))

/-- LDI: the pointer first, then the datum; CC from the datum (R101). -/
def execLdi (dr : Reg) (off9 : BitVec 9) (s : State) : Host.Outcome State Fault Refusal :=
  .next (s.writeResult dr (s.memRead (s.eaInd off9)))

/-- LDR: the base is read before the destination is written (R102). -/
def execLdr (dr base : Reg) (off6 : BitVec 6) (s : State) : Host.Outcome State Fault Refusal :=
  .next (s.writeResult dr (s.memRead (s.eaBase base off6)))

/-- ST (R103). -/
def execSt (sr : Reg) (off9 : BitVec 9) (s : State) : Host.Outcome State Fault Refusal :=
  .next (s.memWrite (s.eaPc off9) (s.reg sr))

/-- STI: the pointer is read, then the word is written through it (R104). -/
def execSti (sr : Reg) (off9 : BitVec 9) (s : State) : Host.Outcome State Fault Refusal :=
  .next (s.memWrite (s.eaInd off9) (s.reg sr))

/-- STR (R105). -/
def execStr (sr base : Reg) (off6 : BitVec 6) (s : State) : Host.Outcome State Fault Refusal :=
  .next (s.memWrite (s.eaBase base off6) (s.reg sr))

end Sys2Proof.Machine
end

