-- ==== Sys2Proof/Machine/Transfer.lean ====
section
/-! DEFINITION. The control transfers BR, JMP, JSR, JSRR (spec 43_control.md). None changes CC or memory (R114). -/

namespace Sys2Proof.Machine

/-- BR: taken when a set condition bit matches CC (R110). -/
def execBr (n z p : Bool) (off9 : BitVec 9) (s : State) : Host.Outcome State Fault Refusal :=
  .next (if condMatches n z p s.cc then { s with pc := s.eaPc off9 } else s)

/-- JMP (R111). -/
def execJmp (base : Reg) (s : State) : Host.Outcome State Fault Refusal :=
  .next { s with pc := s.reg base }

/-- `x[7] <- pc`: the return address of JSR and JSRR, with CC left alone (R112, R113, C1). -/
def State.link (s : State) : State := s.setReg .r7 s.pc

/-- JSR (R112). -/
def execJsr (off11 : BitVec 11) (s : State) : Host.Outcome State Fault Refusal :=
  .next { s.link with pc := s.eaPc11 off11 }

/-- JSRR: the link first, then the target, read after the link was written, so JSRR R7 falls through (R113, D9;
DEDUCED, unsafe: assumption log 16). -/
def execJsrr (base : Reg) (s : State) : Host.Outcome State Fault Refusal :=
  .next { s.link with pc := s.link.reg base }

end Sys2Proof.Machine
end

