-- ==== Sys2Proof/Machine/Trap.lean ====
section
/-! DEFINITION. TRAP and its service routines, run inside the step by the engine itself, and the two no-op opcodes
(spec 44_trap_system.md). No TRAP writes R7, CC or memory, or the PC beyond the increment (R131). -/

namespace Sys2Proof.Machine

/-- GETC: one key into R0, or a wait for one (R121, R88). -/
def execGetc (s : State) : Host.Outcome State Fault Refusal :=
  match s.keyIn with
  | none => .next s.suspend
  | some (k, s') => .next (s'.setReg .r0 k)

/-- OUT: R0 to the display, all 16 bits (R122, R130, D10). -/
def execOut (s : State) : Host.Outcome State Fault Refusal :=
  .next (s.charOut (s.reg .r0))

/-- PUTS: the words from R0 up to a zero word. Without a zero word anywhere the step never finishes, and each model step
writes one lap of memory more (R123, R89, D14; assumption log 13). -/
def execPuts (s : State) : Host.Outcome State Fault Refusal :=
  match s.mem.stringAt (s.reg .r0) with
  | (ws, true) => .next (s.charsOut ws)
  | (ws, false) => .next (s.charsOut ws).suspend

/-- IN: the prompt, once; then one key into R0 and its echo, or a wait for one (R124, R88). -/
def execIn (s : State) : Host.Outcome State Fault Refusal :=
  match s.promptOnce.keyIn with
  | none => .next s.promptOnce.suspend
  | some (k, s') => .next { (s'.setReg .r0 k).charOut k with prompted := false }

/-- PUTSP: reserved, a no-op (R125). -/
def execPutsp (s : State) : Host.Outcome State Fault Refusal := .next s

/-- HALT: the banner, and `halted` set (R126). -/
def execHalt (s : State) : Host.Outcome State Fault Refusal :=
  .next { s.charsOut Config.haltBanner with halted := true }

/-- TRAP with any other vector: a no-op (R127). -/
def execTrapOther (_vector : BitVec 8) (s : State) : Host.Outcome State Fault Refusal := .next s

/-- TRAP, the general row: dispatch on the vector number; memory is not read to find a handler (R120). -/
def execTrap (vector : BitVec 8) (s : State) : Host.Outcome State Fault Refusal :=
  match vector.toNat with
  | 0x20 => execGetc s
  | 0x21 => execOut s
  | 0x22 => execPuts s
  | 0x23 => execIn s
  | 0x24 => execPutsp s
  | 0x25 => execHalt s
  | _ => execTrapOther vector s

/-- RTI: a no-op (R128). -/
def execRti (s : State) : Host.Outcome State Fault Refusal := .next s

/-- The reserved opcode: a no-op (R129). -/
def execRes (s : State) : Host.Outcome State Fault Refusal := .next s

end Sys2Proof.Machine
end

