-- ==== Sys2Proof/Machine/Step.lean ====
section
/-! DEFINITION. One step of the machine: fetch, PC increment, decode, execute (spec 40_step_cycle.md R80 to R89). -/

namespace Sys2Proof.Machine

/-- The step of R80. With `halted` set there is none (R85, D13). A step that waits or never completes leaves an
unfinished state, which the next model step takes up again (R88, R89). -/
def step (s : State) : Host.Outcome State Fault Refusal :=
  if s.halted then .fault .halted
  else
    match exec (decode s.fetch.ir) s.fetch with
    | .next t => .next (s.settle t)
    | .fault f => .fault f
    | .refused r => .refused r

/-- `s` with an instruction's word stored where `step` fetches next, at the PC. An instruction is one 16-bit word
(R50), so `nbits` gives nothing more to place. -/
def State.withFetchWord (s : State) (_nbits w : Nat) : State := s.memWrite s.pc (BitVec.ofNat 16 w)

end Sys2Proof.Machine
end

