-- ==== Sys2Proof/Machine/Boundary.lean ====
section
/-! DEFINITION. What the outside world can do to the machine (spec 20_memory.md R43, R44; 70_reset_and_hazards.md R160,
R167): load an image, deliver a key, set the host-owned bits, look at a slot. The host has no other move (D18,
assumption log 22); it calls these between model steps. -/

namespace Sys2Proof.Machine

/-- Why `load` gives no state (R44, R151). -/
inductive LoadError where
  /-- The stream ends inside a word. -/
  | midWord
  /-- The stream holds no origin word. -/
  | noOrigin
  /-- The words would run past address 0xFFFF: refused, by the spec's decision D17. -/
  | pastEnd
  deriving DecidableEq, Repr

/-- The big-endian words of a byte stream; none if it ends inside a word (R44). -/
def wordsOfBytes : List Byte → Option (List Word)
  | [] => some []
  | [_] => none
  | hi :: lo :: rest =>
    match wordsOfBytes rest with
    | none => none
    | some ws => some (wordOfBytes hi lo :: ws)

/-- The object image of an origin and its words: `[origin][word]*`, each word big-endian (R35, R46). -/
def bytesOfWords : List Word → List Byte
  | [] => []
  | w :: ws => highByte w :: lowByte w :: bytesOfWords ws

/-- Words stored at consecutive addresses (R44). -/
def Memory.writeWords : Memory → Word → List Word → Memory
  | m, _, [] => m
  | m, a, w :: ws => Memory.writeWords (m.write a w) (a + 1) ws

/-- The words of an image put in place, and the PC at the origin; nothing else changes (R44). -/
def State.place (s : State) (origin : Word) (ws : List Word) : State :=
  { s with pc := origin, mem := s.mem.writeWords origin ws }

/-- `load(state, byte_stream)` (R44). -/
def State.load (s : State) (bytes : List Byte) : Except LoadError State :=
  match wordsOfBytes bytes with
  | none => .error .midWord
  | some [] => .error .noOrigin
  | some (origin :: ws) =>
    if origin.toNat + ws.length ≤ 65536 then .ok (s.place origin ws) else .error .pastEnd

/-- Reset and then load, the start of every run, for any choice of the OPEN values (R160, R163). -/
def State.launch (o : OpenReset) (bytes : List Byte) : Except LoadError State :=
  (State.resetOf o).load bytes

/-- The environment delivers one key value (R130, R167). -/
def State.deliverKey (s : State) (k : Word) : State := { s with keys := s.keys ++ [k] }

/-- The host writes `paused` (R17, R167). -/
def State.setPaused (s : State) (b : Bool) : State := { s with paused := b }

/-- A number put into a rising list, once. -/
def insertRising (a : Nat) : List Nat → List Nat
  | [] => [a]
  | x :: xs => if x < a then x :: insertRising a xs else if x = a then x :: xs else a :: x :: xs

/-- The host sets or clears the breakpoint flag of a slot (R19, R149). -/
def State.setBreakpoint (s : State) (a : Word) (on : Bool) : State :=
  { s with breakpoints :=
      if on then insertRising a.toNat s.breakpoints else s.breakpoints.filter (fun x => x != a.toNat) }

/-- A label put into a list by rising address, in the place of the address's old one. -/
def insertLabel (a : Nat) (text : String) : List (Nat × String) → List (Nat × String)
  | [] => [(a, text)]
  | (x, t) :: xs =>
    if x < a then (x, t) :: insertLabel a text xs else if x = a then (a, text) :: xs else (a, text) :: (x, t) :: xs

/-- The host attaches a label to a slot, or takes it away (R19). -/
def State.attachLabel (s : State) (a : Word) (text : Option String) : State :=
  { s with labels :=
      match text with
      | some t => insertLabel a.toNat t s.labels
      | none => s.labels.filter (fun p => p.1 != a.toNat) }

/-- A memory slot as the host sees it between steps (R18, R19, R43). -/
structure Slot where
  value : Word
  /-- Redundant: always the slot's index. -/
  address : Word
  breakpoint : Bool
  label : Option String
  deriving DecidableEq, Repr

/-- The slot at an address, for `render` (R43, R167); every other part of the state is a field the host reads. -/
def State.slotAt (s : State) (a : Word) : Slot where
  value := s.memRead a
  address := a
  breakpoint := s.breakpoints.contains a.toNat
  label := (s.labels.find? (fun p => p.1 == a.toNat)).map Prod.snd

end Sys2Proof.Machine
end

