-- ==== Sys2Proof/Machine/Signals.lean ====
section
/-! DEFINITION. The control-signal table of spec 40_step_cycle.md R87, the datapath it drives (41_operate.md R97), and
the access counts read off it (70_reset_and_hazards.md R166). `exec` does not use this file: it is the spec's own
cross-check, a second account of the machine that reads its operands from IR. -/

namespace Sys2Proof.Machine

/-- REG_DST. -/
inductive RegDst where
  | dr | r7 | r0
  deriving DecidableEq, Repr

/-- REG_SRC: ALU, address adder, memory data, incremented PC, keyboard port. -/
inductive RegSrc where
  | alu | addr | mem | pc | key
  deriving DecidableEq, Repr

/-- ALU_OP. -/
inductive AluOp where
  | add | and | not
  deriving DecidableEq, Repr

/-- ALU_B. -/
inductive AluB where
  | sr2 | imm5
  deriving DecidableEq, Repr

/-- ADDR_BASE. -/
inductive AddrBase where
  | pc | baseR
  deriving DecidableEq, Repr

/-- ADDR_OFF. -/
inductive AddrOff where
  | sext9 | sext6 | sext11
  deriving DecidableEq, Repr

/-- MEM_RD, the data reads of the table: none, one, two, or a string and its terminator. -/
inductive MemRd where
  | none | one | two | string
  deriving DecidableEq, Repr

/-- PC_SRC. -/
inductive PcSrc where
  | inc | addr | reg | cond
  deriving DecidableEq, Repr

/-- IO. -/
inductive Io where
  | none | keyIn | charOut | charsOut | promptKeyEcho | bannerOut
  deriving DecidableEq, Repr

/-- One row of the table; `none` is a dash. -/
structure Signals where
  regWe : Bool := false
  regDst : Option RegDst := none
  regSrc : Option RegSrc := none
  aluOp : Option AluOp := none
  aluB : Option AluB := none
  addrBase : Option AddrBase := none
  addrOff : Option AddrOff := none
  memRd : MemRd := .none
  memWr : Bool := false
  ccWe : Bool := false
  pcSrc : PcSrc := .inc
  io : Io := .none
  haltSet : Bool := false
  deriving DecidableEq, Repr

/-- The last row of the table: TRAP 0x24 and other vectors, RTI, reserved. -/
def Signals.idle : Signals := {}

/-- TRAP 0x20 GETC. -/
def Signals.getc : Signals := { regWe := true, regDst := some .r0, regSrc := some .key, io := .keyIn }

/-- TRAP 0x21 OUT. -/
def Signals.out : Signals := { io := .charOut }

/-- TRAP 0x22 PUTS. -/
def Signals.puts : Signals := { memRd := .string, io := .charsOut }

/-- TRAP 0x23 IN. -/
def Signals.inChar : Signals := { regWe := true, regDst := some .r0, regSrc := some .key, io := .promptKeyEcho }

/-- TRAP 0x25 HALT. -/
def Signals.halt : Signals := { io := .bannerOut, haltSet := true }

/-- The rows of TRAP by vector. -/
def trapSignals (vector : BitVec 8) : Signals :=
  match vector.toNat with
  | 0x20 => .getc
  | 0x21 => .out
  | 0x22 => .puts
  | 0x23 => .inChar
  | 0x25 => .halt
  | _ => .idle

/-- The control-signal table (R87). -/
def signals : Instr → Signals
  | .addReg _ _ _ =>
    { regWe := true, regDst := some .dr, regSrc := some .alu, aluOp := some .add, aluB := some .sr2, ccWe := true }
  | .addImm _ _ _ =>
    { regWe := true, regDst := some .dr, regSrc := some .alu, aluOp := some .add, aluB := some .imm5, ccWe := true }
  | .andReg _ _ _ =>
    { regWe := true, regDst := some .dr, regSrc := some .alu, aluOp := some .and, aluB := some .sr2, ccWe := true }
  | .andImm _ _ _ =>
    { regWe := true, regDst := some .dr, regSrc := some .alu, aluOp := some .and, aluB := some .imm5, ccWe := true }
  | .not _ _ =>
    { regWe := true, regDst := some .dr, regSrc := some .alu, aluOp := some .not, ccWe := true }
  | .lea _ _ =>
    { regWe := true, regDst := some .dr, regSrc := some .addr, addrBase := some .pc, addrOff := some .sext9,
      ccWe := true }
  | .ld _ _ =>
    { regWe := true, regDst := some .dr, regSrc := some .mem, addrBase := some .pc, addrOff := some .sext9,
      memRd := .one, ccWe := true }
  | .ldi _ _ =>
    { regWe := true, regDst := some .dr, regSrc := some .mem, addrBase := some .pc, addrOff := some .sext9,
      memRd := .two, ccWe := true }
  | .ldr _ _ _ =>
    { regWe := true, regDst := some .dr, regSrc := some .mem, addrBase := some .baseR, addrOff := some .sext6,
      memRd := .one, ccWe := true }
  | .st _ _ => { addrBase := some .pc, addrOff := some .sext9, memWr := true }
  | .sti _ _ => { addrBase := some .pc, addrOff := some .sext9, memRd := .one, memWr := true }
  | .str _ _ _ => { addrBase := some .baseR, addrOff := some .sext6, memWr := true }
  | .br _ _ _ _ => { addrBase := some .pc, addrOff := some .sext9, pcSrc := .cond }
  | .jmp _ => { pcSrc := .reg }
  | .jsr _ =>
    { regWe := true, regDst := some .r7, regSrc := some .pc, addrBase := some .pc, addrOff := some .sext11,
      pcSrc := .addr }
  | .jsrr _ => { regWe := true, regDst := some .r7, regSrc := some .pc, pcSrc := .reg }
  | .trap vector => trapSignals vector
  | .getc => .getc
  | .out => .out
  | .puts => .puts
  | .inChar => .inChar
  | .putsp => .idle
  | .halt => .halt
  | .trapOther _ => .idle
  | .rti => .idle
  | .res => .idle

/-! ## The datapath (R97): every unit reads its operands from IR -/

/-- The ALU; an inactive one gives 0, which nothing selects. -/
def Signals.aluOut (c : Signals) (s : State) : Word :=
  let b := match c.aluB with
    | some .sr2 => s.reg (sr2Field s.ir)
    | some .imm5 => sext (imm5Field s.ir)
    | none => 0
  match c.aluOp with
  | some .add => s.reg (sr1Field s.ir) + b
  | some .and => s.reg (sr1Field s.ir) &&& b
  | some .not => ~~~ s.reg (sr1Field s.ir)
  | none => 0

/-- The address adder: `(ADDR_BASE + ADDR_OFF) mod 2^16`. -/
def Signals.adderOut (c : Signals) (s : State) : Word :=
  let base := match c.addrBase with
    | some .pc => s.pc
    | some .baseR => s.reg (sr1Field s.ir)
    | none => 0
  let off := match c.addrOff with
    | some .sext9 => sext (off9Field s.ir)
    | some .sext6 => sext (off6Field s.ir)
    | some .sext11 => sext (off11Field s.ir)
    | none => 0
  base + off

/-- The memory read data: through the pointer when two reads are made. -/
def Signals.memOut (c : Signals) (s : State) : Word :=
  match c.memRd with
  | .two => s.memRead (s.memRead (c.adderOut s))
  | _ => s.memRead (c.adderOut s)

/-- The address of a data write: through the pointer when one was read. -/
def Signals.writeAddr (c : Signals) (s : State) : Word :=
  match c.memRd with
  | .one => s.memRead (c.adderOut s)
  | _ => c.adderOut s

/-- The number of the register written. -/
def Signals.dest (c : Signals) (s : State) : Reg :=
  match c.regDst with
  | some .r7 => .r7
  | some .r0 => .r0
  | _ => drField s.ir

/-- What the ports give a step: whether it can finish, the key read, and the state after the port activity. -/
structure IoResult where
  finished : Bool
  key : Word
  state : State
  deriving DecidableEq, Repr

/-- The port activity of one step. -/
def Signals.ioOut (c : Signals) (s : State) : IoResult :=
  match c.io with
  | .none => ⟨true, 0, s⟩
  | .keyIn =>
    match s.keyIn with
    | none => ⟨false, 0, s⟩
    | some (k, s') => ⟨true, k, s'⟩
  | .charOut => ⟨true, 0, s.charOut (s.reg .r0)⟩
  | .charsOut => ⟨(s.mem.stringAt (s.reg .r0)).2, 0, s.charsOut (s.mem.stringAt (s.reg .r0)).1⟩
  | .promptKeyEcho =>
    match s.promptOnce.keyIn with
    | none => ⟨false, 0, s.promptOnce⟩
    | some (k, s') => ⟨true, k, { s'.charOut k with prompted := false }⟩
  | .bannerOut => ⟨true, 0, s.charsOut Config.haltBanner⟩

/-- The value on the register file's write port. -/
def Signals.regIn (c : Signals) (key : Word) (s : State) : Word :=
  match c.regSrc with
  | some .alu => c.aluOut s
  | some .addr => c.adderOut s
  | some .mem => c.memOut s
  | some .pc => s.pc
  | some .key => key
  | none => 0

/-- The next PC from the register file after the register write (R87: "read after the R7 write"). -/
def Signals.pcIn (c : Signals) (written : State) (s : State) : Word :=
  match c.pcSrc with
  | .inc => s.pc
  | .addr => c.adderOut s
  | .reg => written.reg (sr1Field s.ir)
  | .cond => if condMatches (nBit s.ir) (zBit s.ir) (pBit s.ir) s.cc then c.adderOut s else s.pc

/-- The execute phase as the control signals drive it, from the state after the fetch. -/
def Signals.run (c : Signals) (s : State) : State :=
  let io := c.ioOut s
  if io.finished then
    let v := c.regIn io.key s
    let s1 := if c.regWe then io.state.setReg (c.dest s) v else io.state
    let s2 := if c.ccWe then { s1 with cc := ccOf v } else s1
    let s3 := if c.memWr then s2.memWrite (c.writeAddr s) (s.reg (drField s.ir)) else s2
    let s4 := { s3 with pc := c.pcIn s1 s }
    if c.haltSet then { s4 with halted := true } else s4
  else io.state.suspend

/-! ## Access counts (R166) -/

/-- The architectural accesses of one whole step. -/
structure AccessCounts where
  /-- Memory reads, the fetch among them. -/
  reads : Nat
  writes : Nat
  regWrites : Nat
  charsOut : Nat
  keysIn : Nat
  deriving DecidableEq, Repr

/-- The counts of R166, read off the control signals; a string's length is that of the string at R0. -/
def accessCounts (i : Instr) (s : State) : AccessCounts :=
  let c := signals i
  let len := (s.mem.stringAt (s.reg .r0)).1.length
  { reads := 1 + (match c.memRd with
      | .none => 0
      | .one => 1
      | .two => 2
      | .string => len + 1)
    writes := if c.memWr then 1 else 0
    regWrites := if c.regWe then 1 else 0
    charsOut := match c.io with
      | .charOut => 1
      | .charsOut => len
      | .promptKeyEcho => Config.inPrompt.length + 1
      | .bannerOut => Config.haltBanner.length
      | _ => 0
    keysIn := match c.io with
      | .keyIn => 1
      | .promptKeyEcho => 1
      | _ => 0 }

end Sys2Proof.Machine
end

