-- ==== Sys2Proof/Safety.lean ====
section
/-! DEFINITION. The terms that claims use: what stays the same, the result of each shape of instruction with its frame,
the register, PC and condition-code tables of spec 10_state.md R11, R12, R14, and the invariant of the machine. -/

namespace Sys2Proof.Machine

/-! ## What stays the same -/

/-- Every byte of memory reads as before. -/
def SameMemory (s t : State) : Prop := ∀ q : Nat, t.mem.readByte q = s.mem.readByte q

/-- Every register reads as before. -/
def SameRegs (s t : State) : Prop := ∀ r : Reg, t.reg r = s.reg r

/-- The ports are untouched: no key taken, nothing written, no prompt begun or ended. -/
structure SamePorts (s t : State) : Prop where
  keys : t.keys = s.keys
  display : t.display = s.display
  prompted : t.prompted = s.prompted

/-- What no instruction but HALT, GETC, IN and PUTS can touch: IR, `halted`, the host-owned bits, the mark of an
unfinished step. -/
structure SameRest (s t : State) : Prop where
  ir : t.ir = s.ir
  halted : t.halted = s.halted
  paused : t.paused = s.paused
  breakpoints : t.breakpoints = s.breakpoints
  labels : t.labels = s.labels
  unfinished : t.unfinished = s.unfinished

/-- CC as R15 gives it for a result, in the words of the rule. -/
structure CcFrom (v : Word) (c : CC) : Prop where
  zero : c = .z ↔ v.toNat = 0
  negative : c = .n ↔ 0x8000 ≤ v.toNat
  positive : c = .p ↔ 0x0001 ≤ v.toNat ∧ v.toNat ≤ 0x7FFF

/-! ## The results of the shapes of instruction, each with its frame (R86) -/

/-- `x[dr] <- v; setcc(v)`, and nothing else. -/
structure RegisterResult (dr : Reg) (v : Word) (s t : State) : Prop where
  value : t.reg dr = v
  others : ∀ r : Reg, r ≠ dr → t.reg r = s.reg r
  cc : CcFrom v t.cc
  pc : t.pc = s.pc
  memory : SameMemory s t
  ports : SamePorts s t
  rest : SameRest s t

/-- `MemWrite(a, 1, v)`, and nothing else. -/
structure StoreResult (a v : Word) (s t : State) : Prop where
  value : t.memRead a = v
  others : ∀ q : Nat, q ≠ Memory.position a → q ≠ Memory.position a + 1 → t.mem.readByte q = s.mem.readByte q
  regs : SameRegs s t
  cc : t.cc = s.cc
  pc : t.pc = s.pc
  ports : SamePorts s t
  rest : SameRest s t

/-- `pc <- target`, and nothing else. -/
structure JumpResult (target : Word) (s t : State) : Prop where
  pc : t.pc = target
  regs : SameRegs s t
  cc : t.cc = s.cc
  memory : SameMemory s t
  ports : SamePorts s t
  rest : SameRest s t

/-- `x[7] <- pc; pc <- target`, and nothing else. -/
structure CallResult (target : Word) (s t : State) : Prop where
  pc : t.pc = target
  link : t.reg .r7 = s.pc
  others : ∀ r : Reg, r ≠ .r7 → t.reg r = s.reg r
  cc : t.cc = s.cc
  memory : SameMemory s t
  ports : SamePorts s t
  rest : SameRest s t

/-- The given values written to the display, and nothing else. -/
structure OutputResult (vs : List Word) (s t : State) : Prop where
  display : t.display = s.display ++ vs
  keys : t.keys = s.keys
  prompted : t.prompted = s.prompted
  regs : SameRegs s t
  cc : t.cc = s.cc
  pc : t.pc = s.pc
  memory : SameMemory s t
  rest : SameRest s t

/-- One key taken into R0, the given values written to the display, and nothing else; no IN step is left waiting. -/
structure InputResult (k : Word) (ks vs : List Word) (s t : State) : Prop where
  value : t.reg .r0 = k
  others : ∀ r : Reg, r ≠ .r0 → t.reg r = s.reg r
  keys : t.keys = ks
  display : t.display = s.display ++ vs
  cc : t.cc = s.cc
  pc : t.pc = s.pc
  memory : SameMemory s t
  rest : SameRest s t

/-! ## The tables of 10_state.md -/

/-- The registers read, for an instruction whose trap vector is resolved (R11). -/
def readsRow : Instr → List Reg
  | .addReg _ sr1 sr2 => [sr1, sr2]
  | .addImm _ sr1 _ => [sr1]
  | .andReg _ sr1 sr2 => [sr1, sr2]
  | .andImm _ sr1 _ => [sr1]
  | .not _ sr1 => [sr1]
  | .lea _ _ => []
  | .ld _ _ => []
  | .ldi _ _ => []
  | .ldr _ base _ => [base]
  | .st sr _ => [sr]
  | .sti sr _ => [sr]
  | .str sr base _ => [sr, base]
  | .br _ _ _ _ => []
  | .jmp base => [base]
  | .jsr _ => []
  | .jsrr base => [base]
  | .trap _ => []
  | .getc => []
  | .out => [.r0]
  | .puts => [.r0]
  | .inChar => []
  | .putsp => []
  | .halt => []
  | .trapOther _ => []
  | .rti => []
  | .res => []

/-- The registers written (R11). -/
def writesRow : Instr → List Reg
  | .addReg dr _ _ => [dr]
  | .addImm dr _ _ => [dr]
  | .andReg dr _ _ => [dr]
  | .andImm dr _ _ => [dr]
  | .not dr _ => [dr]
  | .lea dr _ => [dr]
  | .ld dr _ => [dr]
  | .ldi dr _ => [dr]
  | .ldr dr _ _ => [dr]
  | .st _ _ => []
  | .sti _ _ => []
  | .str _ _ _ => []
  | .br _ _ _ _ => []
  | .jmp _ => []
  | .jsr _ => [.r7]
  | .jsrr _ => [.r7]
  | .trap _ => []
  | .getc => [.r0]
  | .out => []
  | .puts => []
  | .inChar => [.r0]
  | .putsp => []
  | .halt => []
  | .trapOther _ => []
  | .rti => []
  | .res => []

/-- The registers an instruction reads (R11); a general TRAP reads what its vector's routine reads. -/
def regsRead (i : Instr) : List Reg := readsRow (resolveTrap i)

/-- The registers an instruction writes (R11). -/
def regsWritten (i : Instr) : List Reg := writesRow (resolveTrap i)

/-- The destination of the seven instructions that set CC; the others have none (R14). -/
def ccDestination : Instr → Option Reg
  | .addReg dr _ _ => some dr
  | .addImm dr _ _ => some dr
  | .andReg dr _ _ => some dr
  | .andImm dr _ _ => some dr
  | .not dr _ => some dr
  | .lea dr _ => some dr
  | .ld dr _ => some dr
  | .ldi dr _ => some dr
  | .ldr dr _ _ => some dr
  | _ => none

/-- The address a store writes, on the state after the fetch; the others write none (R37). -/
def storeAddress (i : Instr) (s : State) : Option Word :=
  match i with
  | .st _ off9 => some (s.eaPc off9)
  | .sti _ off9 => some (s.eaInd off9)
  | .str _ base off6 => some (s.eaBase base off6)
  | _ => none

/-- The PC after the step that executes `i`, from the state before the step (R12's table). -/
def pcAfter (i : Instr) (s : State) : Word :=
  match i with
  | .br n z p off9 => if condMatches n z p s.cc then s.pc + 1 + sext off9 else s.pc + 1
  | .jmp base => s.reg base
  | .jsr off11 => s.pc + 1 + sext off11
  | .jsrr base => if base = .r7 then s.pc + 1 else s.reg base
  | _ => s.pc + 1

/-- The bits of a word that its instruction ignores (R57). -/
def ignoredMask (w : Word) : Word :=
  match opcodeMap (opcodeField w) with
  | .add => if immediateBit w then 0 else 0x0018
  | .and => if immediateBit w then 0 else 0x0018
  | .not => 0x003F
  | .jmp => 0x0E3F
  | .jsr => if jsrModeBit w then 0 else 0x063F
  | .trap => 0x0F00
  | .rti => 0x0FFF
  | .reserved => 0x0FFF
  | _ => 0

/-- The words from an address on, with wrap, as many as asked (R34, R123). -/
def wordsFrom (s : State) (a : Word) (n : Nat) : List Word :=
  (List.range n).map (fun j => s.memRead (a + BitVec.ofNat 16 j))

/-- The `k`-th big-endian word of a byte stream: `256*b[2k] + b[2k+1]` (R44). -/
def imageWord (bytes : List Byte) (k : Nat) : Word :=
  BitVec.ofNat 16 (256 * (bytes.getD (2 * k) 0).toNat + (bytes.getD (2 * k + 1) 0).toNat)

/-! ## The invariant -/

/-- The instructions whose step can be unfinished: GETC and IN wait, PUTS may never end (R88, R89). -/
def mayBeUnfinished : Instr → Bool
  | .getc => true
  | .puts => true
  | .inChar => true
  | _ => false

/-- Memory is canonical; an unfinished step is that of a GETC, PUTS or IN at the PC, in a machine that is not halted; a
prompt already written belongs to an unfinished IN at the PC. -/
abbrev State.Inv (s : State) : Prop :=
  s.mem.wf = true ∧
  (s.unfinished = true → mayBeUnfinished (decode (s.memRead s.pc)) = true ∧ s.halted = false) ∧
  (s.prompted = true → decode (s.memRead s.pc) = .inChar ∧ s.unfinished = true)

/-- A finished step: the state between steps (R84). -/
abbrev State.Between (s : State) : Prop := s.unfinished = false ∧ s.prompted = false

end Sys2Proof.Machine
end

