-- ==== Sys2Proof/Certificates/Slice0/Obligations.lean ====
section
/-! DEFINITION. The statements for the provers. Each docstring names the rule of the spec it formalises. Where a
statement rests on a choice (the opcode numbers and branch bits of D1 and D2, or a convention of the model), the docstring
names the assumption log's entry. -/

open Sys2Proof Sys2Proof.Machine

/-! ## Encoding -/

/-- R52: where each field of a word stands, as arithmetic on the word's number, and the ranges of the signed fields.
The order n, z, p is D2's (assumption log 2). -/
def Obligations.FieldsStandWhereTheTablePutsThem : Prop :=
  (∀ w : Word,
    (opcodeField w).toNat = w.toNat / 4096 ∧
    (drField w).bits.toNat = w.toNat / 512 % 8 ∧
    (sr1Field w).bits.toNat = w.toNat / 64 % 8 ∧
    (sr2Field w).bits.toNat = w.toNat % 8 ∧
    (imm5Field w).toNat = w.toNat % 32 ∧
    (off6Field w).toNat = w.toNat % 64 ∧
    (off9Field w).toNat = w.toNat % 512 ∧
    (off11Field w).toNat = w.toNat % 2048 ∧
    (vectorField w).toNat = w.toNat % 256 ∧
    (immediateBit w = true ↔ w.toNat / 32 % 2 = 1) ∧
    (jsrModeBit w = true ↔ w.toNat / 2048 % 2 = 1) ∧
    (nBit w = true ↔ w.toNat / 2048 % 2 = 1) ∧
    (zBit w = true ↔ w.toNat / 1024 % 2 = 1) ∧
    (pBit w = true ↔ w.toNat / 512 % 2 = 1)) ∧
  (∀ x : BitVec 5, -16 ≤ (sext x).toInt ∧ (sext x).toInt ≤ 15) ∧
  (∀ x : BitVec 6, -32 ≤ (sext x).toInt ∧ (sext x).toInt ≤ 31) ∧
  (∀ x : BitVec 9, -256 ≤ (sext x).toInt ∧ (sext x).toInt ≤ 255) ∧
  (∀ x : BitVec 11, -1024 ≤ (sext x).toInt ∧ (sext x).toInt ≤ 1023)

/-- R53, R61: decoding the word of a well-formed instruction gives the instruction back, for every operand (opcode
numbers: D1, assumption log 1; branch bits: D2, assumption log 2). -/
def Obligations.DecodeOfEncodeIsTheInstruction : Prop :=
  ∀ i : Instr, WellFormed i = true → decode (encode i) = i

/-- R58: every word is accepted as a well-formed instruction that answers a next state from every state; only HALT
sets `halted`; RTI and the reserved opcode do nothing. Opcode numbers: D1, assumption log 1; the next state of a wait
or an endless PUTS: assumption log 11. -/
def Obligations.EveryWordHasADefinedEffect : Prop :=
  ∀ w : Word, WellFormed (decode w) = true ∧
    ∀ s : State, ∃ t, exec (decode w) s = .next t ∧
      (t.halted = true → s.halted = true ∨ decode w = .halt) ∧
      (opcodeMap (opcodeField w) = .rti ∨ opcodeMap (opcodeField w) = .reserved → t = s)

/-- R57 (D22, assumption log 24): changing ignored bits does not change what a word decodes to. -/
def Obligations.IgnoredBitsDoNotMatter : Prop :=
  ∀ w m : Word, decode (w ^^^ (m &&& ignoredMask w)) = decode w

/-- 95_test_vectors.md V1 to V9 and program P2, and 0xFF25 of R120: a word of every row of the opcode table decodes to
its instruction. The opcode numbers are D1's (assumption log 1), the branch bits of the three BR words D2's (assumption
log 2); that the general TRAP row is read before its vector is resolved is the model's (assumption log 20). -/
def Obligations.SampleWordsDecode : Prop :=
  decode 0x14C4 = .addReg .r2 .r3 .r4 ∧ decode 0x123F = .addImm .r1 .r0 0x1F ∧
  decode 0x54C4 = .andReg .r2 .r3 .r4 ∧ decode 0x52B0 = .andImm .r1 .r2 0x10 ∧
  decode 0x923F = .not .r1 .r0 ∧ decode 0xE1FF = .lea .r0 0x1FF ∧
  decode 0x2202 = .ld .r1 0x002 ∧ decode 0xA805 = .ldi .r4 0x005 ∧ decode 0x61BF = .ldr .r0 .r6 0x3F ∧
  decode 0x37FF = .st .r3 0x1FF ∧ decode 0xBA03 = .sti .r5 0x003 ∧ decode 0x71DF = .str .r0 .r7 0x1F ∧
  decode 0x03FD = .br false false true 0x1FD ∧ decode 0x0805 = .br true false false 0x005 ∧
  decode 0x0405 = .br false true false 0x005 ∧ decode 0xCEBF = .jmp .r2 ∧
  decode 0x4C00 = .jsr 0x400 ∧ decode 0x46FF = .jsrr .r3 ∧
  decodeOpcode 0xF025 = .trap 0x25 ∧ decode 0xFF20 = .getc ∧ decode 0xF021 = .out ∧ decode 0xF022 = .puts ∧
  decode 0xF023 = .inChar ∧ decode 0xF024 = .putsp ∧ decode 0xFF25 = .halt ∧ decode 0xF01F = .trapOther 0x1F ∧
  decode 0xF026 = .trapOther 0x26 ∧ decode 0x8ABC = .rti ∧ decode 0xDFFF = .res

/-! ## Operands and the condition code -/

/-- R15: what a result sets CC to, and that CC and the register are written in the same step, by each of the seven
instructions of R14. -/
def Obligations.ResultSetsConditionCode : Prop :=
  (∀ v : Word,
    (ccOf v = .z ↔ v = 0) ∧ (ccOf v = .n ↔ v.toInt < 0) ∧ (ccOf v = .p ↔ 0 < v.toInt) ∧
    (ccOf v = .n ↔ 0x8000 ≤ v.toNat)) ∧
  ∀ (i : Instr) (dr : Reg) (s t : State), ccDestination i = some dr → exec i s = .next t →
    t.cc = ccOf (t.reg dr)

/-- R55: `sext_n` for n = 5, 6, 9, 11, and that the extended value is added to its base modulo 2^16. -/
def Obligations.SignExtensionFollowsItsFormula : Prop :=
  (∀ x : BitVec 5, (sext x).toNat = if x.toNat < 16 then x.toNat else x.toNat + (65536 - 32)) ∧
  (∀ x : BitVec 6, (sext x).toNat = if x.toNat < 32 then x.toNat else x.toNat + (65536 - 64)) ∧
  (∀ x : BitVec 9, (sext x).toNat = if x.toNat < 256 then x.toNat else x.toNat + (65536 - 512)) ∧
  (∀ x : BitVec 11, (sext x).toNat = if x.toNat < 1024 then x.toNat else x.toNat + (65536 - 2048)) ∧
  ∀ s : State,
    (∀ off9, (s.eaPc off9).toNat = (s.pc.toNat + (sext off9).toNat) % 65536) ∧
    (∀ base off6, (s.eaBase base off6).toNat = ((s.reg base).toNat + (sext off6).toNat) % 65536) ∧
    (∀ off11, (s.eaPc11 off11).toNat = (s.pc.toNat + (sext off11).toNat) % 65536)

/-- R106: the three effective addresses, what each reaches, and that no addressing mode modifies its base. -/
def Obligations.EffectiveAddressesReachTheirWindow : Prop :=
  (∀ (s : State) (a : Word),
    (∃ off9, s.eaPc off9 = a) ↔ -256 ≤ (a - s.pc).toInt ∧ (a - s.pc).toInt ≤ 255) ∧
  (∀ (s : State) (base : Reg) (a : Word),
    (∃ off6, s.eaBase base off6 = a) ↔ -32 ≤ (a - s.reg base).toInt ∧ (a - s.reg base).toInt ≤ 31) ∧
  (∀ (off9 : BitVec 9) (a : Word), ∃ s : State, s.eaInd off9 = a) ∧
  (∀ (s : State) (off9 : BitVec 9) (off6 : BitVec 6) (base : Reg),
    s.eaPc off9 = BitVec.ofNat 16 (s.pc.toNat + (sext off9).toNat) ∧
    s.eaInd off9 = s.memRead (BitVec.ofNat 16 (s.pc.toNat + (sext off9).toNat)) ∧
    s.eaBase base off6 = BitVec.ofNat 16 ((s.reg base).toNat + (sext off6).toNat)) ∧
  ∀ (r base : Reg) (off9 : BitVec 9) (off6 : BitVec 6) (s t : State),
    (exec (.ld r off9) s = .next t ∨ exec (.ldi r off9) s = .next t ∨ exec (.st r off9) s = .next t ∨
      exec (.sti r off9) s = .next t ∨ exec (.ldr r base off6) s = .next t ∨ exec (.str r base off6) s = .next t →
      t.pc = s.pc) ∧
    (exec (.str r base off6) s = .next t → t.reg base = s.reg base) ∧
    (exec (.ldr r base off6) s = .next t → r ≠ base → t.reg base = s.reg base)

/-! ## The instructions: what selects each, its result and its frame -/

/-- R90: ADD, register mode. The sum is reduced modulo 2^16; sources are read before the write. Opcode number: D1,
assumption log 1. -/
def Obligations.AddRegisterWritesTheSum : Prop :=
  (∀ w : Word, opcodeField w = 0x1 → immediateBit w = false →
    decode w = .addReg (drField w) (sr1Field w) (sr2Field w)) ∧
  ∀ (dr sr1 sr2 : Reg) (s : State), ∃ t, exec (.addReg dr sr1 sr2) s = .next t ∧
    RegisterResult dr (BitVec.ofNat 16 ((s.reg sr1).toNat + (s.reg sr2).toNat)) s t

/-- R91: ADD, immediate mode. Opcode number: D1, assumption log 1. -/
def Obligations.AddImmediateWritesTheSum : Prop :=
  (∀ w : Word, opcodeField w = 0x1 → immediateBit w = true →
    decode w = .addImm (drField w) (sr1Field w) (imm5Field w)) ∧
  ∀ (dr sr1 : Reg) (imm5 : BitVec 5) (s : State), ∃ t, exec (.addImm dr sr1 imm5) s = .next t ∧
    RegisterResult dr (BitVec.ofNat 16 ((s.reg sr1).toNat + (sext imm5).toNat)) s t

/-- R92: AND, register mode, on each of the 16 bit positions. Opcode number: D1, assumption log 1. -/
def Obligations.AndRegisterWritesTheConjunction : Prop :=
  (∀ w : Word, opcodeField w = 0x5 → immediateBit w = false →
    decode w = .andReg (drField w) (sr1Field w) (sr2Field w)) ∧
  ∀ (dr sr1 sr2 : Reg) (s : State), ∃ t v, exec (.andReg dr sr1 sr2) s = .next t ∧ RegisterResult dr v s t ∧
    ∀ k < 16, v.getLsbD k = ((s.reg sr1).getLsbD k && (s.reg sr2).getLsbD k)

/-- R93: AND, immediate mode; the immediate is sign-extended before the AND. Opcode number: D1, assumption log 1. -/
def Obligations.AndImmediateWritesTheConjunction : Prop :=
  (∀ w : Word, opcodeField w = 0x5 → immediateBit w = true →
    decode w = .andImm (drField w) (sr1Field w) (imm5Field w)) ∧
  ∀ (dr sr1 : Reg) (imm5 : BitVec 5) (s : State), ∃ t v, exec (.andImm dr sr1 imm5) s = .next t ∧
    RegisterResult dr v s t ∧
    ∀ k < 16, v.getLsbD k = ((s.reg sr1).getLsbD k && imm5.getLsbD (min k 4))

/-- R94: NOT writes `0xFFFF - x[SR1]`. Opcode number: D1, assumption log 1. -/
def Obligations.NotWritesTheComplement : Prop :=
  (∀ w : Word, opcodeField w = 0x9 → decode w = .not (drField w) (sr1Field w)) ∧
  ∀ (dr sr1 : Reg) (s : State), ∃ t, exec (.not dr sr1) s = .next t ∧
    RegisterResult dr (BitVec.ofNat 16 (0xFFFF - (s.reg sr1).toNat)) s t

/-- R95: LEA writes the address and sets CC from it. Opcode number: D1, assumption log 1. -/
def Obligations.LeaWritesTheAddress : Prop :=
  (∀ w : Word, opcodeField w = 0xE → decode w = .lea (drField w) (off9Field w)) ∧
  ∀ (dr : Reg) (off9 : BitVec 9) (s : State), ∃ t, exec (.lea dr off9) s = .next t ∧
    RegisterResult dr (BitVec.ofNat 16 (s.pc.toNat + (sext off9).toNat)) s t

/-- R100: LD. Opcode number: D1, assumption log 1. -/
def Obligations.LdLoadsFromThePcWindow : Prop :=
  (∀ w : Word, opcodeField w = 0x2 → decode w = .ld (drField w) (off9Field w)) ∧
  ∀ (dr : Reg) (off9 : BitVec 9) (s : State), ∃ t, exec (.ld dr off9) s = .next t ∧
    RegisterResult dr (s.memRead (BitVec.ofNat 16 (s.pc.toNat + (sext off9).toNat))) s t

/-- R101: LDI, through the pointer; CC from the datum. Opcode number: D1, assumption log 1. -/
def Obligations.LdiLoadsThroughThePointer : Prop :=
  (∀ w : Word, opcodeField w = 0xA → decode w = .ldi (drField w) (off9Field w)) ∧
  ∀ (dr : Reg) (off9 : BitVec 9) (s : State), ∃ t, exec (.ldi dr off9) s = .next t ∧
    RegisterResult dr (s.memRead (s.memRead (BitVec.ofNat 16 (s.pc.toNat + (sext off9).toNat)))) s t

/-- R102: LDR; the base is read before the destination is written. Opcode number: D1, assumption log 1. -/
def Obligations.LdrLoadsFromTheBaseWindow : Prop :=
  (∀ w : Word, opcodeField w = 0x6 → decode w = .ldr (drField w) (sr1Field w) (off6Field w)) ∧
  ∀ (dr base : Reg) (off6 : BitVec 6) (s : State), ∃ t, exec (.ldr dr base off6) s = .next t ∧
    RegisterResult dr (s.memRead (BitVec.ofNat 16 ((s.reg base).toNat + (sext off6).toNat))) s t

/-- R103: ST stores one word at `ea_pc` and changes nothing else. Opcode number: D1, assumption log 1; the premise
that memory is canonical is the model's: assumption log 9. -/
def Obligations.StStoresInThePcWindow : Prop :=
  (∀ w : Word, opcodeField w = 0x3 → decode w = .st (drField w) (off9Field w)) ∧
  ∀ (sr : Reg) (off9 : BitVec 9) (s : State), s.mem.wf = true →
    ∃ t, exec (.st sr off9) s = .next t ∧ StoreResult (s.eaPc off9) (s.reg sr) s t

/-- R104: STI stores through the pointer word at `ea_pc`. Opcode number: D1, assumption log 1; the premise that memory
is canonical is the model's: assumption log 9. -/
def Obligations.StiStoresThroughThePointer : Prop :=
  (∀ w : Word, opcodeField w = 0xB → decode w = .sti (drField w) (off9Field w)) ∧
  ∀ (sr : Reg) (off9 : BitVec 9) (s : State), s.mem.wf = true →
    ∃ t, exec (.sti sr off9) s = .next t ∧ StoreResult (s.memRead (s.eaPc off9)) (s.reg sr) s t

/-- R105: STR stores one word at `ea_base`. Opcode number: D1, assumption log 1; the premise that memory is canonical
is the model's: assumption log 9. -/
def Obligations.StrStoresInTheBaseWindow : Prop :=
  (∀ w : Word, opcodeField w = 0x7 → decode w = .str (drField w) (sr1Field w) (off6Field w)) ∧
  ∀ (sr base : Reg) (off6 : BitVec 6) (s : State), s.mem.wf = true →
    ∃ t, exec (.str sr base off6) s = .next t ∧ StoreResult (s.eaBase base off6) (s.reg sr) s t

/-- R110: BR, taken and not taken (bit order: D2, assumption log 2). Opcode number: D1, assumption log 1. -/
def Obligations.BrJumpsWhenAConditionBitMatches : Prop :=
  (∀ w : Word, opcodeField w = 0x0 → decode w = .br (nBit w) (zBit w) (pBit w) (off9Field w)) ∧
  ∀ (n z p : Bool) (off9 : BitVec 9) (s : State), ∃ t, exec (.br n z p off9) s = .next t ∧
    ((n = true ∧ s.cc = .n) ∨ (z = true ∧ s.cc = .z) ∨ (p = true ∧ s.cc = .p) →
      JumpResult (BitVec.ofNat 16 (s.pc.toNat + (sext off9).toNat)) s t) ∧
    (¬ ((n = true ∧ s.cc = .n) ∨ (z = true ∧ s.cc = .z) ∨ (p = true ∧ s.cc = .p)) → JumpResult s.pc s t)

/-- R111: JMP. Opcode number: D1, assumption log 1. -/
def Obligations.JmpJumpsToTheRegister : Prop :=
  (∀ w : Word, opcodeField w = 0xC → decode w = .jmp (sr1Field w)) ∧
  ∀ (base : Reg) (s : State), ∃ t, exec (.jmp base) s = .next t ∧ JumpResult (s.reg base) s t

/-- R112: JSR links in R7 and jumps; CC is not set. Opcode number: D1, assumption log 1. -/
def Obligations.JsrLinksAndJumps : Prop :=
  (∀ w : Word, opcodeField w = 0x4 → jsrModeBit w = true → decode w = .jsr (off11Field w)) ∧
  ∀ (off11 : BitVec 11) (s : State), ∃ t, exec (.jsr off11) s = .next t ∧
    CallResult (BitVec.ofNat 16 (s.pc.toNat + (sext off11).toNat)) s t

/-- R113: JSRR links first and reads the target after (D9, assumption log 16), so JSRR R7 falls through. Opcode
number: D1, assumption log 1. -/
def Obligations.JsrrLinksThenReadsTheTarget : Prop :=
  (∀ w : Word, opcodeField w = 0x4 → jsrModeBit w = false → decode w = .jsrr (sr1Field w)) ∧
  ∀ (base : Reg) (s : State), ∃ t, exec (.jsrr base) s = .next t ∧
    (base ≠ .r7 → CallResult (s.reg base) s t) ∧ (base = .r7 → CallResult s.pc s t)

/-- R120: TRAP dispatches on the vector number alone: the general row does what the row of its vector does, and
completes for every vector when a key is pending and memory has a zero word. Opcode number: D1, assumption log 1; the
general row and the mark of an unfinished step: assumption log 20, 11. -/
def Obligations.TrapDispatchesOnItsVector : Prop :=
  (∀ w : Word, opcodeField w = 0xF → decodeOpcode w = .trap (vectorField w)) ∧
  (∀ s : State, exec (.trap 0x20) s = exec .getc s ∧ exec (.trap 0x21) s = exec .out s ∧
    exec (.trap 0x22) s = exec .puts s ∧ exec (.trap 0x23) s = exec .inChar s ∧
    exec (.trap 0x24) s = exec .putsp s ∧ exec (.trap 0x25) s = exec .halt s) ∧
  (∀ (v : BitVec 8) (s : State), v.toNat < 0x20 ∨ 0x25 < v.toNat → exec (.trap v) s = .next s) ∧
  ∀ (v : BitVec 8) (s : State), s.unfinished = false → s.keys ≠ [] → (∃ a, s.memRead a = 0) →
    ∃ t, exec (.trap v) s = .next t ∧ t.unfinished = false

/-- R121: GETC with a key available. Opcode number: D1, assumption log 1; the pending keys: assumption log 10. -/
def Obligations.GetcTakesAKey : Prop :=
  (∀ w : Word, opcodeField w = 0xF → vectorField w = 0x20 → decode w = .getc) ∧
  ∀ (k : Word) (ks : List Word) (s : State), s.keys = k :: ks →
    ∃ t, exec .getc s = .next t ∧ InputResult k ks [] s t ∧ t.prompted = s.prompted

/-- R122: OUT. Opcode number: D1, assumption log 1; all 16 bits: D10, assumption log 18. -/
def Obligations.OutWritesOneCharacter : Prop :=
  (∀ w : Word, opcodeField w = 0xF → vectorField w = 0x21 → decode w = .out) ∧
  ∀ s : State, ∃ t, exec .out s = .next t ∧ OutputResult [s.reg .r0] s t

/-- R123: PUTS writes the words before the first zero word from R0 on, with wrap, and leaves R0 as it was. Opcode
number: D1, assumption log 1; all 16 bits: D10, assumption log 18. -/
def Obligations.PutsWritesTheString : Prop :=
  (∀ w : Word, opcodeField w = 0xF → vectorField w = 0x22 → decode w = .puts) ∧
  ∀ (n : Nat) (s : State), n < 65536 → (∀ j < n, s.memRead (s.reg .r0 + BitVec.ofNat 16 j) ≠ 0) →
    s.memRead (s.reg .r0 + BitVec.ofNat 16 n) = 0 →
    ∃ t, exec .puts s = .next t ∧ OutputResult (wordsFrom s (s.reg .r0) n) s t

/-- R124: IN with a key available; the prompt is written unless the waiting step has written it (assumption log 12).
Opcode number: D1, assumption log 1; the pending keys, the prompt's text, all 16 bits: assumption log 10, 14, 18. -/
def Obligations.InPromptsTakesAKeyAndEchoes : Prop :=
  (∀ w : Word, opcodeField w = 0xF → vectorField w = 0x23 → decode w = .inChar) ∧
  ∀ (k : Word) (ks : List Word) (s : State), s.keys = k :: ks →
    ∃ t, exec .inChar s = .next t ∧
      (s.prompted = false → InputResult k ks (Config.inPrompt ++ [k]) s t) ∧
      (s.prompted = true → InputResult k ks [k] s t) ∧ t.prompted = false

/-- R126: HALT writes the banner, sets `halted`, and changes nothing else. Opcode number: D1, assumption log 1; the
banner's text: D12, assumption log 14. -/
def Obligations.HaltWritesTheBannerAndHalts : Prop :=
  (∀ w : Word, opcodeField w = 0xF → vectorField w = 0x25 → decode w = .halt) ∧
  ∀ s : State, ∃ t, exec .halt s = .next t ∧ t.halted = true ∧
    OutputResult Config.haltBanner s { t with halted := s.halted }

/-- R125, R127, R128, R129: PUTSP, every other vector, RTI and the reserved opcode do nothing, so a step over one
changes IR and PC alone. Opcode numbers: D1, assumption log 1; the mark of an unfinished step: assumption log 11. -/
def Obligations.NoOpsChangeOnlyIrAndPc : Prop :=
  (∀ (s : State) (v : BitVec 8), exec .putsp s = .next s ∧ exec (.trapOther v) s = .next s ∧
    exec .rti s = .next s ∧ exec .res s = .next s) ∧
  ∀ s : State, s.halted = false → s.unfinished = false →
    (s.memRead s.pc).toNat / 4096 = 0x8 ∨ (s.memRead s.pc).toNat / 4096 = 0xD ∨
    ((s.memRead s.pc).toNat / 4096 = 0xF ∧
      ((s.memRead s.pc).toNat % 256 < 0x20 ∨ 0x23 < (s.memRead s.pc).toNat % 256) ∧
      (s.memRead s.pc).toNat % 256 ≠ 0x25) →
    step s = .next { s with ir := s.memRead s.pc, pc := s.pc + 1 }

/-! ## The step -/

/-- R80, R81, R82: a step fetches at the PC, increments the PC before the instruction executes, and executes the decoded
instruction once; what the model adds is `settle`, which acts only on an unfinished step (assumption log 11). -/
def Obligations.StepRunsTheDecodedInstruction : Prop :=
  (∀ s : State, s.fetch = { s with
      ir := s.memRead s.pc, pc := BitVec.ofNat 16 ((s.pc.toNat + 1) % 65536), unfinished := false }) ∧
  ∀ (s u : State) (i : Instr), s.halted = false → decode (s.memRead s.pc) = i → exec i s.fetch = .next u →
    step s = .next (s.settle u) ∧ (u.unfinished = false → step s = .next u) ∧
    (u.unfinished = true → step s = .next { u with pc := s.pc, ir := s.ir })

/-- R89 and D13 (assumption log 15): a step stops exactly when `halted` is set; from every other state it answers a
next state. A wait and an endless PUTS are unfinished next states: assumption log 11. -/
def Obligations.StepStopsExactlyWhenHalted : Prop :=
  ∀ s : State, (s.halted = true → step s = .fault .halted) ∧ (s.halted = false → ∃ t, step s = .next t)

/-- R12: the PC after a finished step, by instruction (JSRR R7 by D9, assumption log 16), and after a load. The mark
of an unfinished step: assumption log 11. -/
def Obligations.PcAfterAStepFollowsTheTable : Prop :=
  (∀ s t : State, step s = .next t → t.unfinished = false → t.pc = pcAfter (decode (s.memRead s.pc)) s) ∧
  (∀ (i : Instr) (s : State), (∀ n z p off9, i ≠ .br n z p off9) → (∀ base, i ≠ .jmp base) →
    (∀ off11, i ≠ .jsr off11) → (∀ base, i ≠ .jsrr base) →
    (pcAfter i s).toNat = (s.pc.toNat + 1) % 65536) ∧
  ∀ (s t : State) (bytes : List Byte), s.load bytes = .ok t → t.pc = imageWord bytes 0

/-- R13: IR holds the word of the instruction a finished step executed; no instruction and no load writes it, and no
instruction reads it as data. -/
def Obligations.IrHoldsTheExecutedWord : Prop :=
  (∀ s t : State, step s = .next t → t.unfinished = false → t.ir = s.memRead s.pc) ∧
  (∀ (s t : State) (bytes : List Byte), s.load bytes = .ok t → t.ir = s.ir) ∧
  ∀ (i : Instr) (s t : State) (w : Word), exec i s = .next t →
    t.ir = s.ir ∧ exec i { s with ir := w } = .next { t with ir := w }

/-- R14: exactly the seven instructions write CC, each from the value it writes to its destination, and BR alone
reads it. -/
def Obligations.OnlySevenInstructionsWriteCc : Prop :=
  (∀ (i : Instr) (s t : State), exec i s = .next t →
    (∀ dr, ccDestination i = some dr → t.cc = ccOf (t.reg dr)) ∧ (ccDestination i = none → t.cc = s.cc)) ∧
  (∀ (i : Instr) (s t : State) (c : CC), (∀ n z p off9, i ≠ .br n z p off9) → exec i s = .next t →
    (ccDestination i = none → exec i { s with cc := c } = .next { t with cc := c }) ∧
    (ccDestination i ≠ none → exec i { s with cc := c } = .next t)) ∧
  ∃ (i : Instr) (s t t' : State) (c : CC), exec i s = .next t ∧ exec i { s with cc := c } = .next t' ∧ t'.pc ≠ t.pc

/-- R11: an instruction changes no register outside its written ones, and a register it does not read influences
nothing but itself (that TRAP writes no R7 is D8's, assumption log 17). -/
def Obligations.RegistersReadAndWrittenFollowTheTable : Prop :=
  (∀ (i : Instr) (s t : State) (r : Reg), exec i s = .next t → r ∉ regsWritten i → t.reg r = s.reg r) ∧
  ∀ (i : Instr) (s t : State) (r : Reg) (v : Word), r ∉ regsRead i → exec i s = .next t →
    ∃ t', exec i (s.setReg r v) = .next t' ∧ (∀ q, q ≠ r → t'.reg q = t.reg q) ∧
      { t' with regs := t.regs } = t

/-- R16: `halted` is set by TRAP 0x25 and by nothing else, cleared by no instruction, no step and no load but only by a
reset, read by no instruction, and no step proceeds past it. -/
def Obligations.HaltedIsSetByHaltAlone : Prop :=
  (∀ s t : State, step s = .next t → s.halted = false ∧ (t.halted = true ↔ decode (s.memRead s.pc) = .halt)) ∧
  (∀ (i : Instr) (s t : State) (b : Bool), exec i s = .next t →
    (s.halted = true → t.halted = true) ∧ ∃ h, exec i { s with halted := b } = .next { t with halted := h }) ∧
  (∀ s t : State, s.halted = true → step s ≠ .next t) ∧
  (∀ (s t : State) (bytes : List Byte), s.load bytes = .ok t → t.halted = s.halted) ∧
  ∀ o : OpenReset, (State.resetOf o).halted = false

/-- R37: a step changes at most the one word its store addresses; a step that is no store changes no byte. -/
def Obligations.OnlyStoresChangeMemory : Prop :=
  ∀ s t : State, step s = .next t →
    (∀ q : Nat, t.mem.readByte q ≠ s.mem.readByte q →
      ∃ a, storeAddress (decode (s.memRead s.pc)) s.fetch = some a ∧
        (q = Memory.position a ∨ q = Memory.position a + 1)) ∧
    (storeAddress (decode (s.memRead s.pc)) s.fetch = none → t.mem = s.mem)

/-- R17, R19, R86: the host-owned bits change no step, and no step changes them. -/
def Obligations.HostBitsChangeNoStep : Prop :=
  ∀ (s t : State) (b : Bool) (bps : List Nat) (lbs : List (Nat × String)),
    (step s = .next t → t.paused = s.paused ∧ t.breakpoints = s.breakpoints ∧ t.labels = s.labels) ∧
    (step s = .next t → step { s with paused := b, breakpoints := bps, labels := lbs } =
      .next { t with paused := b, breakpoints := bps, labels := lbs }) ∧
    (step s = .fault .halted →
      step { s with paused := b, breakpoints := bps, labels := lbs } = .fault .halted)

/-- R131 (R7: D8, assumption log 17): what no TRAP does, whatever its vector. -/
def Obligations.TrapsLeaveRegistersCcAndMemoryAlone : Prop :=
  ∀ (i : Instr) (s t : State), i.opcode = .trap → exec i s = .next t →
    t.pc = s.pc ∧ t.cc = s.cc ∧ t.mem = s.mem ∧ (∀ r, r ≠ .r0 → t.reg r = s.reg r) ∧
    (i = .out ∨ i = .puts ∨ i = .putsp ∨ i = .halt → t.regs = s.regs)

/-- R130 (D20, assumption log 10): the keyboard port is used by GETC and IN alone, the display port by OUT, PUTS, IN and
HALT alone, and no instruction reads what was displayed. -/
def Obligations.PortsAreUsedByTheirTrapsAlone : Prop :=
  (∀ (i : Instr) (s t : State) (ks : List Word), resolveTrap i ≠ .getc → resolveTrap i ≠ .inChar →
    exec i s = .next t → t.keys = s.keys ∧ exec i { s with keys := ks } = .next { t with keys := ks }) ∧
  (∀ (i : Instr) (s t : State), resolveTrap i ≠ .out → resolveTrap i ≠ .puts → resolveTrap i ≠ .inChar →
    resolveTrap i ≠ .halt → exec i s = .next t → t.display = s.display) ∧
  ∀ (i : Instr) (s t : State) (d : List Word), exec i s = .next t →
    ∃ vs, t.display = s.display ++ vs ∧ exec i { s with display := d } = .next { t with display := d ++ vs }

/-! ## Unfinished steps -/

/-- R88, R143: while GETC or IN waits nothing changes, but for IN's prompt, written once (the state of a wait is the
model's: assumption log 11, 12). -/
def Obligations.WaitingChangesOnlyThePrompt : Prop :=
  ∀ s : State, s.halted = false → s.keys = [] →
    (decode (s.memRead s.pc) = .getc → step s = .next { s with unfinished := true }) ∧
    (decode (s.memRead s.pc) = .inChar → step s = .next { s with
      unfinished := true, prompted := true,
      display := s.display ++ (if s.prompted then [] else Config.inPrompt) })

/-- R88, R124: only a key ends the wait, and then the step is the one that would have run had the key been there
(assumption log 11). The prompt written once: assumption log 12; key delivery: assumption log 10. -/
def Obligations.AKeyEndsTheWait : Prop :=
  ∀ (s w : State) (k : Word), s.halted = false → s.prompted = false → s.keys = [] →
    decode (s.memRead s.pc) = .getc ∨ decode (s.memRead s.pc) = .inChar → step s = .next w →
    w.unfinished = true ∧ step w = .next w ∧
    ∃ t, step (w.deliverKey k) = .next t ∧ step (s.deliverKey k) = .next t ∧
      t.unfinished = false ∧ t.reg .r0 = k ∧ t.pc = s.pc + 1

/-- R89, D14 (assumption log 13): PUTS over a memory without a zero word never completes: after any number of model
steps it is still unfinished, and the display repeats memory cyclically from R0. The mark of an unfinished step:
assumption log 11. -/
def Obligations.PutsWithoutAZeroWordNeverCompletes : Prop :=
  ∀ s : State, s.halted = false → decode (s.memRead s.pc) = .puts → (∀ a, s.memRead a ≠ 0) →
    ∀ n : Nat, core.run (n + 1) s = .next { s with
      unfinished := true, display := s.display ++ wordsFrom s (s.reg .r0) ((n + 1) * 65536) }

/-! ## Memory, load and reset -/

/-- R32, R33: a read gives the latest write to its address, a write changes one word, and the canonical form is kept.
Memory's canonical form is the model's: assumption log 9. -/
def Obligations.MemoryReadsTheLatestWrite : Prop :=
  ∀ (s : State) (a v : Word), s.mem.wf = true →
    (s.memWrite a v).mem.wf = true ∧ (∀ b, (s.memWrite a v).memRead b = if b = a then v else s.memRead b) ∧
    (∀ u, ((s.memWrite a u).memWrite a v).mem = (s.memWrite a v).mem) ∧ (s.memWrite a (s.memRead a)).mem = s.mem

/-- R42, R81: a store to the next instruction is what the next step executes; a store to its own address does not
change the instruction being executed, and beyond the fetch it changes that one word alone. The premise that memory is
canonical is the model's: assumption log 9; the mark of an unfinished step: assumption log 11. -/
def Obligations.TheNextFetchSeesTheStore : Prop :=
  ∀ (s t : State) (sr : Reg), s.mem.wf = true → step s = .next t →
    (decode (s.memRead s.pc) = .st sr 0 →
      t.memRead t.pc = s.reg sr ∧ ∀ u, step t = .next u → u.unfinished = false → u.ir = s.reg sr) ∧
    (decode (s.memRead s.pc) = .st sr 0x1FF →
      t.ir = s.memRead s.pc ∧ t.pc = s.pc + 1 ∧ StoreResult s.pc (s.reg sr) s.fetch t)

/-- R44: what `load` does with a stream of even length, and that a stream of odd length or without an origin word
gives no state. The premise that memory is canonical is the model's: assumption log 9; the refusals: assumption log
19. -/
def Obligations.LoadPlacesTheImage : Prop :=
  (∀ (s : State) (bytes : List Byte) (n : Nat), s.mem.wf = true → bytes.length = 2 * (n + 1) →
    (imageWord bytes 0).toNat + n ≤ 65536 →
    ∃ t, s.load bytes = .ok t ∧ t.pc = imageWord bytes 0 ∧
      (∀ k < n, t.memRead (imageWord bytes 0 + BitVec.ofNat 16 k) = imageWord bytes (k + 1)) ∧
      (∀ a : Word, a.toNat < (imageWord bytes 0).toNat ∨ (imageWord bytes 0).toNat + n ≤ a.toNat →
        t.memRead a = s.memRead a) ∧
      { t with pc := s.pc, mem := s.mem } = s) ∧
  ∀ (s : State) (bytes : List Byte), bytes.length % 2 = 1 ∨ bytes = [] → ∃ e, s.load bytes = .error e

/-- D17 (assumption log 19): an image whose words would run past address 0xFFFF is refused, and no other image of even
length with an origin is. -/
def Obligations.LoadRefusesExactlyThePastEnd : Prop :=
  ∀ (s : State) (bytes : List Byte) (n : Nat), bytes.length = 2 * (n + 1) →
    (s.load bytes = .error .pastEnd ↔ 65536 < (imageWord bytes 0).toNat + n)

/-- R22, R160: the launch state, for every choice of the OPEN values: `halted` 0, the output empty (D6, D20), the PC at
the image's origin, every word outside the image and everything else as chosen. The model's own choice is zero
(assumption log 3 to 8, 10, 21). -/
def Obligations.LaunchStateFollowsResetAndLoad : Prop :=
  (∀ (o : OpenReset) (bytes : List Byte) (s : State), State.launch o bytes = .ok s →
    s.halted = false ∧ s.display = [] ∧ s.pc = imageWord bytes 0 ∧ s.regs = o.regs ∧ s.cc = o.cc ∧ s.ir = o.ir ∧
    s.paused = o.paused ∧ s.breakpoints = o.breakpoints ∧ s.labels = o.labels ∧ s.keys = o.keys ∧ s.Between ∧
    ∀ a : Word, a.toNat < (imageWord bytes 0).toNat ∨ (imageWord bytes 0).toNat + (bytes.length / 2 - 1) ≤ a.toNat →
      s.memRead a = (State.resetOf o).memRead a) ∧
  State.reset = State.resetOf .zero ∧ (∀ r, State.reset.reg r = 0) ∧ ∀ a, State.reset.memRead a = 0

/-! ## Invariants and refinement -/

/-- Every step keeps the invariant: memory stays canonical, an unfinished step stays that of the GETC, PUTS or IN at
the PC, and a prompt already written stays that of an unfinished IN (R88, R89, R143). The canonical form and the two
marks are the model's: assumption log 9, 11, 12. -/
def Obligations.EveryStepKeepsTheInvariant : Prop :=
  ∀ s t : State, s.Inv → step s = .next t → t.Inv

/-- The invariant holds at reset, for every canonical INIT_MEM. The invariant is the model's: the canonical form,
assumption log 9, and the two marks, assumption log 11 and 12, false at reset, assumption log 30; State.reset's zero
memory: assumption log 8. -/
def Obligations.ResetMeetsTheInvariant : Prop :=
  State.reset.Inv ∧ ∀ o : OpenReset, o.mem.wf = true → (State.resetOf o).Inv

/-- The host's moves keep the invariant; `load` does between steps, as R167 asks. The invariant and State.Between are
the model's: assumption log 9, 11, 12, 30; the moves are its rendering of the host: assumption log 7, 10, 19, 21, 22.
-/
def Obligations.HostMovesKeepTheInvariant : Prop :=
  (∀ (s t : State) (bytes : List Byte), s.Inv → s.Between → s.load bytes = .ok t → t.Inv) ∧
  ∀ (s : State) (k a : Word) (b : Bool) (l : Option String), s.Inv →
    (s.deliverKey k).Inv ∧ (s.setPaused b).Inv ∧ (s.setBreakpoint a b).Inv ∧ (s.attachLabel a l).Inv

/-- R87, R97: the control-signal table, driving a datapath that takes every operand from IR, gives exactly what the
decoded instruction gives, in every state (the two unfinished cases as assumption log 11 and 13 model them). -/
def Obligations.ControlSignalsDriveTheDatapath : Prop :=
  ∀ s : State, exec (decode s.ir) s = .next ((signals (decode s.ir)).run s)

/-- R166: the counts of port events, register writes and memory writes against what a finished step changes: the ports
by exactly the counts (a prompt that a waiting model step of the IN has written already is not written again,
assumption log 12), and no register or byte outside those that the decoded instruction writes, whose numbers are the
counts. The pending keys: assumption log 10; the mark of an unfinished step: assumption log 11. -/
def Obligations.AccessCountsBoundTheChanges : Prop :=
  ∀ s t : State, step s = .next t → t.unfinished = false →
    let i := decode (s.memRead s.pc)
    t.display.length + (if i = .inChar ∧ s.prompted = true then Config.inPrompt.length else 0) =
      s.display.length + (accessCounts i s).charsOut ∧
    s.keys.length = t.keys.length + (accessCounts i s).keysIn ∧
    (accessCounts i s).regWrites = (regsWritten i).length ∧
    (∀ r, r ∉ regsWritten i → t.reg r = s.reg r) ∧
    (accessCounts i s).writes ≤ 1 ∧ ((accessCounts i s).writes = 1 ↔ ∃ a, storeAddress i s.fetch = some a) ∧
    ∀ q : Nat, (∀ a, storeAddress i s.fetch = some a → q ≠ Memory.position a ∧ q ≠ Memory.position a + 1) →
      t.mem.readByte q = s.mem.readByte q
end

