-- ==== Sys2Proof/Laws/Decode.lean ====
section
/-! SUPPORT. Small laws of the encoding tables and of the fields of a word that is put together from its fields. -/

namespace Sys2Proof

/-! ## The tables are one to one (R10, R54) -/

@[simp] theorem opcodeMap_opcodeBits (o : Opcode) : opcodeMap (opcodeBits o) = o := by
  cases o <;> rfl

@[simp] theorem opcodeBits_opcodeMap (b : BitVec 4) : opcodeBits (opcodeMap b) = b := by
  revert b; decide

@[simp] theorem Reg.ofBits_bits (r : Reg) : Reg.ofBits r.bits = r := by
  cases r <;> rfl

@[simp] theorem Reg.bits_ofBits (b : BitVec 3) : (Reg.ofBits b).bits = b := by
  revert b; decide

/-! ## Fields of a word put together from an opcode and twelve low bits -/

/-- The opcode of an encoded instruction is its own. -/
@[simp] theorem opcodeField_encode (i : Instr) : opcodeField (encode i) = opcodeBits i.opcode := by
  rw [opcodeField, encode, BitVec.extractLsb'_append_eq_of_le (Nat.le_refl 12)]
  exact BitVec.extractLsb'_eq_self

/-- A field below bit 12 of an encoded instruction is a field of its low bits. -/
theorem extract_encode (i : Instr) {start len : Nat} (h : start + len ≤ 12) :
    (encode i).extractLsb' start len = i.lowBits.extractLsb' start len := by
  rw [encode, BitVec.extractLsb'_append_eq_of_add_le h]

/-- A bit below bit 12 of an encoded instruction is a bit of its low bits. -/
theorem bit_encode (i : Instr) {k : Nat} (h : k < 12) : (encode i).getLsbD k = i.lowBits.getLsbD k := by
  rw [encode, BitVec.getLsbD_append, if_pos (by simpa using h)]

/-- The upper part of two parts put together. -/
theorem field_high {v w : Nat} (x : BitVec v) (y : BitVec w) : (x ++ y).extractLsb' w v = x := by
  rw [BitVec.extractLsb'_append_eq_of_le (Nat.le_refl w), Nat.sub_self]
  exact BitVec.extractLsb'_eq_self

/-- The lower part of two parts put together. -/
theorem field_low {v w : Nat} (x : BitVec v) (y : BitVec w) : (x ++ y).extractLsb' 0 w = y := by
  rw [BitVec.extractLsb'_append_eq_of_add_le (by omega)]
  exact BitVec.extractLsb'_eq_self

/-- The middle part of three parts put together. -/
theorem field_middle {u v w : Nat} (x : BitVec u) (y : BitVec v) (z : BitVec w) :
    (x ++ y ++ z).extractLsb' w v = y := by
  rw [BitVec.extractLsb'_append_eq_of_le (Nat.le_refl w), Nat.sub_self]
  exact field_low x y

/-! ## Trap vectors (R59) -/

/-- A vector outside the six selects TRAP_other. -/
theorem trapRow_of_other {v : BitVec 8} (h : isOtherVector v = true) : trapRow v = .trapOther v := by
  revert v; decide

/-- Every vector selects a well-formed row. -/
theorem wellFormed_trapRow (v : BitVec 8) : WellFormed (trapRow v) = true := by
  revert v; decide

/-- Every trap row has the TRAP opcode. -/
theorem opcode_trapRow (v : BitVec 8) : (trapRow v).opcode = .trap := by
  revert v; decide

/-- Nothing but a general TRAP is changed by resolving its vector. -/
theorem resolveTrap_of_wellFormed {i : Instr} (h : WellFormed i = true) : resolveTrap i = i := by
  cases i <;> first | rfl | exact absurd h (by simp [WellFormed])

/-- Decoding in two stages keeps the opcode that the top four bits select (R51). -/
theorem opcode_decode (w : Word) : (decode w).opcode = opcodeMap (opcodeField w) := by
  unfold decode decodeOpcode
  cases h : opcodeMap (opcodeField w) <;>
    first
      | rfl
      | exact opcode_trapRow _
      | (dsimp only; split <;> rfl)

end Sys2Proof
end

