-- ==== Sys2Proof/Laws/Memory.lean ====
section
/-! SUPPORT. The laws of memory: canonical form is kept, a read after a write to the same place gives what was written,
a write leaves every other place alone, and two canonical memories that read alike are the same data. -/

namespace Sys2Proof.Machine

/-! ## Canonical form -/

theorem Memory.wfFrom_mono {lo lo' : Nat} (h : lo' ≤ lo) {m : Memory} (hm : Memory.wfFrom lo m = true) :
    Memory.wfFrom lo' m = true := by
  cases m with
  | nil => rfl
  | cons e rest =>
    obtain ⟨k, b⟩ := e
    simp only [Memory.wfFrom, Bool.and_eq_true, decide_eq_true_eq] at hm ⊢
    exact ⟨⟨⟨by omega, hm.1.1.2⟩, hm.1.2⟩, hm.2⟩

theorem Memory.wfFrom_cons {lo k : Nat} {b : Byte} {rest : Memory} :
    Memory.wfFrom lo ((k, b) :: rest) = true ↔
      lo ≤ k ∧ k < Memory.size ∧ b ≠ Memory.unlisted ∧ Memory.wfFrom (k + 1) rest = true := by
  simp [Memory.wfFrom, and_assoc]

/-- A position below a canonical list is unlisted. -/
theorem Memory.readByte_below {lo q : Nat} (h : q < lo) {m : Memory} (hm : Memory.wfFrom lo m = true) :
    m.readByte q = Memory.unlisted := by
  induction m generalizing lo with
  | nil => rfl
  | cons e rest ih =>
    obtain ⟨k, b⟩ := e
    obtain ⟨h1, -, -, h4⟩ := Memory.wfFrom_cons.mp hm
    rw [Memory.readByte, if_neg (by omega)]
    exact ih (by omega) h4

theorem Memory.wfFrom_entry {lo q : Nat} {v : Byte} {rest : Memory} (h1 : lo ≤ q) (h2 : q < Memory.size)
    (hr : Memory.wfFrom (q + 1) rest = true) : Memory.wfFrom lo (Memory.entry q v rest) = true := by
  unfold Memory.entry
  split
  · exact Memory.wfFrom_mono (by omega) hr
  · exact Memory.wfFrom_cons.mpr ⟨h1, h2, by assumption, hr⟩

theorem Memory.wfFrom_writeByte {lo q : Nat} (v : Byte) {m : Memory} (h1 : lo ≤ q) (h2 : q < Memory.size)
    (hm : Memory.wfFrom lo m = true) : Memory.wfFrom lo (m.writeByte q v) = true := by
  induction m generalizing lo with
  | nil => exact Memory.wfFrom_entry h1 h2 rfl
  | cons e rest ih =>
    obtain ⟨k, b⟩ := e
    obtain ⟨g1, g2, g3, g4⟩ := Memory.wfFrom_cons.mp hm
    rw [Memory.writeByte]
    split
    · exact Memory.wfFrom_cons.mpr ⟨g1, g2, g3, ih (by omega) g4⟩
    · split
      · exact Memory.wfFrom_entry h1 h2 (by subst_vars; exact g4)
      · exact Memory.wfFrom_entry h1 h2 (Memory.wfFrom_cons.mpr ⟨by omega, g2, g3, g4⟩)

/-- Writing a byte keeps the canonical form. -/
theorem Memory.wf_writeByte {q : Nat} (v : Byte) {m : Memory} (h : q < Memory.size) (hm : m.wf = true) :
    (m.writeByte q v).wf = true :=
  Memory.wfFrom_writeByte v (Nat.zero_le q) h hm

/-- Every word of the address space has both its bytes inside memory (R30). -/
theorem Memory.position_lt (a : Word) : Memory.position a + 1 < Memory.size := by
  have := a.isLt
  simp only [Memory.position, Memory.size]; omega

/-- Writing a word keeps the canonical form. -/
theorem Memory.wf_write (a v : Word) {m : Memory} (hm : m.wf = true) : (m.write a v).wf = true :=
  Memory.wf_writeByte _ (Memory.position_lt a)
    (Memory.wf_writeByte _ (Nat.lt_of_succ_lt (Memory.position_lt a)) hm)

/-- Storing an image keeps the canonical form. -/
theorem Memory.wf_writeWords (ws : List Word) (a : Word) {m : Memory} (hm : m.wf = true) :
    (m.writeWords a ws).wf = true := by
  induction ws generalizing a m with
  | nil => exact hm
  | cons w ws ih => exact ih (a + 1) (Memory.wf_write a w hm)

/-! ## Read after write, byte by byte -/

theorem Memory.readByte_entry_same {lo q : Nat} (v : Byte) {rest : Memory} (h : q < lo)
    (hr : Memory.wfFrom lo rest = true) : (Memory.entry q v rest).readByte q = v := by
  unfold Memory.entry
  split
  · rename_i hv
    rw [Memory.readByte_below h hr, hv]
  · simp [Memory.readByte]

theorem Memory.readByte_entry_other {q p : Nat} (v : Byte) (rest : Memory) (h : p ≠ q) :
    (Memory.entry q v rest).readByte p = rest.readByte p := by
  unfold Memory.entry
  split
  · rfl
  · rw [Memory.readByte, if_neg (Ne.symm h)]

theorem Memory.readByte_writeByte_same_from {lo : Nat} (q : Nat) (v : Byte) {m : Memory}
    (hm : Memory.wfFrom lo m = true) : (m.writeByte q v).readByte q = v := by
  induction m generalizing lo with
  | nil => exact Memory.readByte_entry_same (lo := q + 1) v (Nat.lt_succ_self q) rfl
  | cons e rest ih =>
    obtain ⟨k, b⟩ := e
    obtain ⟨g1, g2, g3, g4⟩ := Memory.wfFrom_cons.mp hm
    rw [Memory.writeByte]
    split
    · rw [Memory.readByte, if_neg (by omega)]
      exact ih g4
    · split
      · exact Memory.readByte_entry_same v (by omega) g4
      · exact Memory.readByte_entry_same (lo := k) v (by omega)
          (Memory.wfFrom_cons.mpr ⟨Nat.le_refl k, g2, g3, g4⟩)

/-- The byte written is read back. -/
theorem Memory.readByte_writeByte_same (q : Nat) (v : Byte) {m : Memory} (hm : m.wf = true) :
    (m.writeByte q v).readByte q = v :=
  Memory.readByte_writeByte_same_from q v hm

/-- Every other byte reads as before, in any list. -/
theorem Memory.readByte_writeByte_other {p q : Nat} (v : Byte) (m : Memory) (h : p ≠ q) :
    (m.writeByte q v).readByte p = m.readByte p := by
  induction m with
  | nil => exact Memory.readByte_entry_other v [] h
  | cons e rest ih =>
    obtain ⟨k, b⟩ := e
    rw [Memory.writeByte]
    split
    · simp only [Memory.readByte, ih]
    · split
      · subst_vars
        rw [Memory.readByte_entry_other v rest h, Memory.readByte, if_neg (Ne.symm h)]
      · exact Memory.readByte_entry_other v _ h

/-! ## Words -/

/-- A word is its two bytes (R35). -/
@[simp] theorem wordOfBytes_bytes (v : Word) : wordOfBytes (highByte v) (lowByte v) = v := by
  apply BitVec.eq_of_getLsbD_eq
  intro i hi
  simp only [wordOfBytes, highByte, lowByte, BitVec.getLsbD_append, BitVec.getLsbD_extractLsb']
  by_cases h : i < 8
  · simp [h]
  · have : i - 8 < 8 := by omega
    simp [h, this, show 8 + (i - 8) = i by omega]

/-- `256 * first + second` (R35, R44). -/
theorem toNat_wordOfBytes (hi lo : Byte) : (wordOfBytes hi lo).toNat = 256 * hi.toNat + lo.toNat := by
  have h1 := hi.isLt
  have h2 := lo.isLt
  unfold wordOfBytes
  rw [BitVec.toNat_append, ← Nat.shiftLeft_add_eq_or_of_lt h2, Nat.shiftLeft_eq]
  omega

@[simp] theorem highByte_wordOfBytes (hi lo : Byte) : highByte (wordOfBytes hi lo) = hi := by
  apply BitVec.eq_of_toNat_eq
  have h1 := hi.isLt
  have h2 := lo.isLt
  rw [highByte, BitVec.extractLsb'_toNat, toNat_wordOfBytes, Nat.shiftRight_eq_div_pow]
  omega

@[simp] theorem lowByte_wordOfBytes (hi lo : Byte) : lowByte (wordOfBytes hi lo) = lo := by
  apply BitVec.eq_of_toNat_eq
  have h2 := lo.isLt
  rw [lowByte, BitVec.extractLsb'_toNat, toNat_wordOfBytes, Nat.shiftRight_eq_div_pow]
  omega

theorem Memory.position_inj {a b : Word} (h : Memory.position a = Memory.position b) : a = b := by
  apply BitVec.eq_of_toNat_eq
  simp only [Memory.position] at h; omega

/-- The bytes of two different words do not overlap. -/
theorem Memory.position_apart {a b : Word} (h : a ≠ b) :
    Memory.position a ≠ Memory.position b ∧ Memory.position a ≠ Memory.position b + 1 ∧
      Memory.position a + 1 ≠ Memory.position b := by
  have : a.toNat ≠ b.toNat := fun e => h (BitVec.eq_of_toNat_eq e)
  simp only [Memory.position]; omega

/-- A store leaves every byte outside its word alone (R33). -/
theorem Memory.readByte_write_other {a : Word} {q : Nat} (v : Word) (m : Memory)
    (h1 : q ≠ Memory.position a) (h2 : q ≠ Memory.position a + 1) : (m.write a v).readByte q = m.readByte q := by
  rw [Memory.write, Memory.readByte_writeByte_other _ _ h2, Memory.readByte_writeByte_other _ _ h1]

/-- The word stored is read back (R32). -/
theorem Memory.read_write_same (a v : Word) {m : Memory} (hm : m.wf = true) : (m.write a v).read a = v := by
  have h1 : (m.writeByte (Memory.position a) (highByte v)).wf = true :=
    Memory.wf_writeByte _ (Nat.lt_of_succ_lt (Memory.position_lt a)) hm
  rw [Memory.read, Memory.write, Memory.readByte_writeByte_same _ _ h1,
    Memory.readByte_writeByte_other _ _ (by omega), Memory.readByte_writeByte_same _ _ hm, wordOfBytes_bytes]

/-- A store leaves every other word alone (R33). -/
theorem Memory.read_write_other {a b : Word} (v : Word) (m : Memory) (h : b ≠ a) :
    (m.write a v).read b = m.read b := by
  obtain ⟨h1, h2, h3⟩ := Memory.position_apart h
  rw [Memory.read, Memory.read, Memory.readByte_write_other v m h1 h2,
    Memory.readByte_write_other v m h3 (by omega)]

/-- Reading words looks at the bytes alone. -/
theorem Memory.read_congr {m m' : Memory} (h : ∀ q, m'.readByte q = m.readByte q) (a : Word) :
    m'.read a = m.read a := by
  simp [Memory.read, h]

/-- Equal memories are equal data: canonical lists that read alike are the same list. -/
theorem Memory.eq_of_readByte {m m' : Memory} {lo : Nat} (hm : Memory.wfFrom lo m = true)
    (hm' : Memory.wfFrom lo m' = true) (h : ∀ q, m.readByte q = m'.readByte q) : m = m' := by
  induction m generalizing m' lo with
  | nil =>
    cases m' with
    | nil => rfl
    | cons e rest =>
      obtain ⟨k, b⟩ := e
      obtain ⟨-, -, g3, -⟩ := Memory.wfFrom_cons.mp hm'
      exact absurd (by simpa [Memory.readByte] using (h k).symm) g3
  | cons e rest ih =>
    obtain ⟨k, b⟩ := e
    obtain ⟨g1, g2, g3, g4⟩ := Memory.wfFrom_cons.mp hm
    cases m' with
    | nil => exact absurd (by simpa [Memory.readByte] using h k) g3
    | cons e' rest' =>
      obtain ⟨k', b'⟩ := e'
      obtain ⟨g1', g2', g3', g4'⟩ := Memory.wfFrom_cons.mp hm'
      have hk : k = k' := by
        rcases Nat.lt_trichotomy k k' with hlt | heq | hgt
        · have := h k
          rw [Memory.readByte, if_pos rfl, Memory.readByte, if_neg (by omega),
            Memory.readByte_below (lo := k' + 1) (by omega) g4'] at this
          exact absurd this g3
        · exact heq
        · have := h k'
          rw [Memory.readByte, if_neg (by omega), Memory.readByte_below (lo := k + 1) (by omega) g4,
            Memory.readByte, if_pos rfl] at this
          exact absurd this.symm g3'
      subst hk
      have hb : b = b' := by simpa [Memory.readByte] using h k
      subst hb
      have hr : rest = rest' := ih g4 g4' (fun q => by
        have hq := h q
        by_cases hkq : k = q
        · subst hkq
          rw [Memory.readByte_below (Nat.lt_succ_self k) g4, Memory.readByte_below (Nat.lt_succ_self k) g4']
        · simpa [Memory.readByte, hkq] using hq)
      rw [hr]

/-! ## Loading an image (R44) -/

/-- Everything a load can do: if it gives a state, the stream is whole words, an origin and words that fit behind it,
and the state has them in place. -/
theorem State.load_cases {s t : State} {bytes : List Byte} (h : s.load bytes = .ok t) :
    ∃ origin ws, wordsOfBytes bytes = some (origin :: ws) ∧ origin.toNat + ws.length ≤ 65536 ∧
      t = s.place origin ws := by
  unfold State.load at h
  split at h
  · cases h
  · cases h
  · rename_i origin ws hw
    split at h
    · rename_i hf
      exact ⟨origin, ws, hw, hf, by cases h; rfl⟩
    · cases h

/-! ## The string walk of PUTS -/

/-- The address after the `j`-th from `a` is the next one, with wrap (R34). -/
theorem nextAddress (a : Word) (j : Nat) : a + 1 + BitVec.ofNat 16 j = a + BitVec.ofNat 16 (j + 1) := by
  rw [BitVec.ofNat_add, BitVec.add_assoc, BitVec.add_comm (BitVec.ofNat 16 j)]
  rfl

theorem Memory.stringFrom_succ (m : Memory) (fuel : Nat) (a : Word) :
    m.stringFrom (fuel + 1) a =
      if m.read a = 0 then ([], true)
      else (m.read a :: (m.stringFrom fuel (a + 1)).1, (m.stringFrom fuel (a + 1)).2) := rfl

/-- A walk with enough fuel stops at the first zero word, with the words before it. -/
theorem Memory.stringFrom_ends (m : Memory) (n : Nat) : ∀ (fuel : Nat) (a : Word), n < fuel →
    (∀ j < n, m.read (a + BitVec.ofNat 16 j) ≠ 0) → m.read (a + BitVec.ofNat 16 n) = 0 →
    m.stringFrom fuel a = ((List.range n).map (fun j => m.read (a + BitVec.ofNat 16 j)), true) := by
  induction n with
  | zero =>
    intro fuel a hf _ hz
    obtain ⟨f, rfl⟩ := Nat.exists_eq_add_of_lt hf
    have hz' : m.read a = 0 := by simpa using hz
    rw [show 0 + f + 1 = f + 1 by omega, Memory.stringFrom_succ, if_pos hz']
    rfl
  | succ n ih =>
    intro fuel a hf hne hz
    obtain ⟨f, rfl⟩ : ∃ f, fuel = f + 1 := ⟨fuel - 1, by omega⟩
    have hcast := nextAddress a
    have h0 : m.read a ≠ 0 := by simpa using hne 0 (Nat.succ_pos n)
    have hrec := ih f (a + 1) (by omega)
      (fun j hj => by rw [hcast]; exact hne (j + 1) (by omega)) (by rw [hcast]; exact hz)
    rw [Memory.stringFrom_succ, if_neg h0, hrec]
    simp only [hcast, List.range_succ_eq_map, List.map_cons, List.map_map]
    simp [Function.comp_def]

/-- A walk that meets no zero word takes all its fuel. -/
theorem Memory.stringFrom_endless (m : Memory) (h : ∀ a, m.read a ≠ 0) (fuel : Nat) : ∀ a : Word,
    m.stringFrom fuel a = ((List.range fuel).map (fun j => m.read (a + BitVec.ofNat 16 j)), false) := by
  induction fuel with
  | zero => intro a; rfl
  | succ fuel ih =>
    intro a
    have hcast := nextAddress a
    rw [Memory.stringFrom_succ, if_neg (h a), ih (a + 1)]
    simp only [hcast, List.range_succ_eq_map, List.map_cons, List.map_map]
    simp [Function.comp_def]

end Sys2Proof.Machine
end

