-- ==== Sys2Proof/Laws/State.lean ====
section
/-! SUPPORT. One lemma per field per update of the state, and the laws of the register file, so that no proof unfolds
a record update. -/

namespace Sys2Proof.Machine

/-! ## The register file -/

@[simp] theorem RegFile.get_set_same (f : RegFile) (r : Reg) (v : Word) : (f.set r v).get r = v := by
  cases r <;> rfl

theorem RegFile.get_set_other (f : RegFile) {r q : Reg} (v : Word) (h : q ≠ r) : (f.set r v).get q = f.get q := by
  cases r <;> cases q <;> first | rfl | exact absurd rfl h

/-- Two files with the same eight values are the same file. -/
theorem RegFile.ext_get {f g : RegFile} (h : ∀ r, f.get r = g.get r) : f = g := by
  cases f; cases g
  simpa [RegFile.get] using
    And.intro (h .r0) ⟨h .r1, h .r2, h .r3, h .r4, h .r5, h .r6, h .r7⟩

/-! ## setReg -/

@[simp] theorem State.setReg_regs (s : State) (r : Reg) (v : Word) : (s.setReg r v).regs = s.regs.set r v := rfl
@[simp] theorem State.setReg_pc (s : State) (r : Reg) (v : Word) : (s.setReg r v).pc = s.pc := rfl
@[simp] theorem State.setReg_ir (s : State) (r : Reg) (v : Word) : (s.setReg r v).ir = s.ir := rfl
@[simp] theorem State.setReg_cc (s : State) (r : Reg) (v : Word) : (s.setReg r v).cc = s.cc := rfl
@[simp] theorem State.setReg_halted (s : State) (r : Reg) (v : Word) : (s.setReg r v).halted = s.halted := rfl
@[simp] theorem State.setReg_paused (s : State) (r : Reg) (v : Word) : (s.setReg r v).paused = s.paused := rfl
@[simp] theorem State.setReg_mem (s : State) (r : Reg) (v : Word) : (s.setReg r v).mem = s.mem := rfl
@[simp] theorem State.setReg_breakpoints (s : State) (r : Reg) (v : Word) : (s.setReg r v).breakpoints = s.breakpoints := rfl
@[simp] theorem State.setReg_labels (s : State) (r : Reg) (v : Word) : (s.setReg r v).labels = s.labels := rfl
@[simp] theorem State.setReg_keys (s : State) (r : Reg) (v : Word) : (s.setReg r v).keys = s.keys := rfl
@[simp] theorem State.setReg_display (s : State) (r : Reg) (v : Word) : (s.setReg r v).display = s.display := rfl
@[simp] theorem State.setReg_unfinished (s : State) (r : Reg) (v : Word) : (s.setReg r v).unfinished = s.unfinished := rfl
@[simp] theorem State.setReg_prompted (s : State) (r : Reg) (v : Word) : (s.setReg r v).prompted = s.prompted := rfl

/-! ## writeResult -/

@[simp] theorem State.writeResult_regs (s : State) (r : Reg) (v : Word) : (s.writeResult r v).regs = s.regs.set r v := rfl
@[simp] theorem State.writeResult_pc (s : State) (r : Reg) (v : Word) : (s.writeResult r v).pc = s.pc := rfl
@[simp] theorem State.writeResult_ir (s : State) (r : Reg) (v : Word) : (s.writeResult r v).ir = s.ir := rfl
@[simp] theorem State.writeResult_cc (s : State) (r : Reg) (v : Word) : (s.writeResult r v).cc = ccOf v := rfl
@[simp] theorem State.writeResult_halted (s : State) (r : Reg) (v : Word) : (s.writeResult r v).halted = s.halted := rfl
@[simp] theorem State.writeResult_paused (s : State) (r : Reg) (v : Word) : (s.writeResult r v).paused = s.paused := rfl
@[simp] theorem State.writeResult_mem (s : State) (r : Reg) (v : Word) : (s.writeResult r v).mem = s.mem := rfl
@[simp] theorem State.writeResult_breakpoints (s : State) (r : Reg) (v : Word) : (s.writeResult r v).breakpoints = s.breakpoints := rfl
@[simp] theorem State.writeResult_labels (s : State) (r : Reg) (v : Word) : (s.writeResult r v).labels = s.labels := rfl
@[simp] theorem State.writeResult_keys (s : State) (r : Reg) (v : Word) : (s.writeResult r v).keys = s.keys := rfl
@[simp] theorem State.writeResult_display (s : State) (r : Reg) (v : Word) : (s.writeResult r v).display = s.display := rfl
@[simp] theorem State.writeResult_unfinished (s : State) (r : Reg) (v : Word) : (s.writeResult r v).unfinished = s.unfinished := rfl
@[simp] theorem State.writeResult_prompted (s : State) (r : Reg) (v : Word) : (s.writeResult r v).prompted = s.prompted := rfl

/-! ## memWrite -/

@[simp] theorem State.memWrite_regs (s : State) (a v : Word) : (s.memWrite a v).regs = s.regs := rfl
@[simp] theorem State.memWrite_pc (s : State) (a v : Word) : (s.memWrite a v).pc = s.pc := rfl
@[simp] theorem State.memWrite_ir (s : State) (a v : Word) : (s.memWrite a v).ir = s.ir := rfl
@[simp] theorem State.memWrite_cc (s : State) (a v : Word) : (s.memWrite a v).cc = s.cc := rfl
@[simp] theorem State.memWrite_halted (s : State) (a v : Word) : (s.memWrite a v).halted = s.halted := rfl
@[simp] theorem State.memWrite_paused (s : State) (a v : Word) : (s.memWrite a v).paused = s.paused := rfl
@[simp] theorem State.memWrite_mem (s : State) (a v : Word) : (s.memWrite a v).mem = s.mem.write a v := rfl
@[simp] theorem State.memWrite_breakpoints (s : State) (a v : Word) : (s.memWrite a v).breakpoints = s.breakpoints := rfl
@[simp] theorem State.memWrite_labels (s : State) (a v : Word) : (s.memWrite a v).labels = s.labels := rfl
@[simp] theorem State.memWrite_keys (s : State) (a v : Word) : (s.memWrite a v).keys = s.keys := rfl
@[simp] theorem State.memWrite_display (s : State) (a v : Word) : (s.memWrite a v).display = s.display := rfl
@[simp] theorem State.memWrite_unfinished (s : State) (a v : Word) : (s.memWrite a v).unfinished = s.unfinished := rfl
@[simp] theorem State.memWrite_prompted (s : State) (a v : Word) : (s.memWrite a v).prompted = s.prompted := rfl

/-! ## charsOut -/

@[simp] theorem State.charsOut_regs (s : State) (vs : List Word) : (s.charsOut vs).regs = s.regs := rfl
@[simp] theorem State.charsOut_pc (s : State) (vs : List Word) : (s.charsOut vs).pc = s.pc := rfl
@[simp] theorem State.charsOut_ir (s : State) (vs : List Word) : (s.charsOut vs).ir = s.ir := rfl
@[simp] theorem State.charsOut_cc (s : State) (vs : List Word) : (s.charsOut vs).cc = s.cc := rfl
@[simp] theorem State.charsOut_halted (s : State) (vs : List Word) : (s.charsOut vs).halted = s.halted := rfl
@[simp] theorem State.charsOut_paused (s : State) (vs : List Word) : (s.charsOut vs).paused = s.paused := rfl
@[simp] theorem State.charsOut_mem (s : State) (vs : List Word) : (s.charsOut vs).mem = s.mem := rfl
@[simp] theorem State.charsOut_breakpoints (s : State) (vs : List Word) : (s.charsOut vs).breakpoints = s.breakpoints := rfl
@[simp] theorem State.charsOut_labels (s : State) (vs : List Word) : (s.charsOut vs).labels = s.labels := rfl
@[simp] theorem State.charsOut_keys (s : State) (vs : List Word) : (s.charsOut vs).keys = s.keys := rfl
@[simp] theorem State.charsOut_display (s : State) (vs : List Word) : (s.charsOut vs).display = s.display ++ vs := rfl
@[simp] theorem State.charsOut_unfinished (s : State) (vs : List Word) : (s.charsOut vs).unfinished = s.unfinished := rfl
@[simp] theorem State.charsOut_prompted (s : State) (vs : List Word) : (s.charsOut vs).prompted = s.prompted := rfl

/-! ## charOut -/

@[simp] theorem State.charOut_regs (s : State) (v : Word) : (s.charOut v).regs = s.regs := rfl
@[simp] theorem State.charOut_pc (s : State) (v : Word) : (s.charOut v).pc = s.pc := rfl
@[simp] theorem State.charOut_ir (s : State) (v : Word) : (s.charOut v).ir = s.ir := rfl
@[simp] theorem State.charOut_cc (s : State) (v : Word) : (s.charOut v).cc = s.cc := rfl
@[simp] theorem State.charOut_halted (s : State) (v : Word) : (s.charOut v).halted = s.halted := rfl
@[simp] theorem State.charOut_paused (s : State) (v : Word) : (s.charOut v).paused = s.paused := rfl
@[simp] theorem State.charOut_mem (s : State) (v : Word) : (s.charOut v).mem = s.mem := rfl
@[simp] theorem State.charOut_breakpoints (s : State) (v : Word) : (s.charOut v).breakpoints = s.breakpoints := rfl
@[simp] theorem State.charOut_labels (s : State) (v : Word) : (s.charOut v).labels = s.labels := rfl
@[simp] theorem State.charOut_keys (s : State) (v : Word) : (s.charOut v).keys = s.keys := rfl
@[simp] theorem State.charOut_display (s : State) (v : Word) : (s.charOut v).display = s.display ++ [v] := rfl
@[simp] theorem State.charOut_unfinished (s : State) (v : Word) : (s.charOut v).unfinished = s.unfinished := rfl
@[simp] theorem State.charOut_prompted (s : State) (v : Word) : (s.charOut v).prompted = s.prompted := rfl

/-! ## suspend -/

@[simp] theorem State.suspend_regs (s : State) : (s.suspend).regs = s.regs := rfl
@[simp] theorem State.suspend_pc (s : State) : (s.suspend).pc = s.pc := rfl
@[simp] theorem State.suspend_ir (s : State) : (s.suspend).ir = s.ir := rfl
@[simp] theorem State.suspend_cc (s : State) : (s.suspend).cc = s.cc := rfl
@[simp] theorem State.suspend_halted (s : State) : (s.suspend).halted = s.halted := rfl
@[simp] theorem State.suspend_paused (s : State) : (s.suspend).paused = s.paused := rfl
@[simp] theorem State.suspend_mem (s : State) : (s.suspend).mem = s.mem := rfl
@[simp] theorem State.suspend_breakpoints (s : State) : (s.suspend).breakpoints = s.breakpoints := rfl
@[simp] theorem State.suspend_labels (s : State) : (s.suspend).labels = s.labels := rfl
@[simp] theorem State.suspend_keys (s : State) : (s.suspend).keys = s.keys := rfl
@[simp] theorem State.suspend_display (s : State) : (s.suspend).display = s.display := rfl
@[simp] theorem State.suspend_unfinished (s : State) : (s.suspend).unfinished = true := rfl
@[simp] theorem State.suspend_prompted (s : State) : (s.suspend).prompted = s.prompted := rfl

/-! ## fetch -/

@[simp] theorem State.fetch_regs (s : State) : (s.fetch).regs = s.regs := rfl
@[simp] theorem State.fetch_pc (s : State) : (s.fetch).pc = s.pc + 1 := rfl
@[simp] theorem State.fetch_ir (s : State) : (s.fetch).ir = s.memRead s.pc := rfl
@[simp] theorem State.fetch_cc (s : State) : (s.fetch).cc = s.cc := rfl
@[simp] theorem State.fetch_halted (s : State) : (s.fetch).halted = s.halted := rfl
@[simp] theorem State.fetch_paused (s : State) : (s.fetch).paused = s.paused := rfl
@[simp] theorem State.fetch_mem (s : State) : (s.fetch).mem = s.mem := rfl
@[simp] theorem State.fetch_breakpoints (s : State) : (s.fetch).breakpoints = s.breakpoints := rfl
@[simp] theorem State.fetch_labels (s : State) : (s.fetch).labels = s.labels := rfl
@[simp] theorem State.fetch_keys (s : State) : (s.fetch).keys = s.keys := rfl
@[simp] theorem State.fetch_display (s : State) : (s.fetch).display = s.display := rfl
@[simp] theorem State.fetch_unfinished (s : State) : (s.fetch).unfinished = false := rfl
@[simp] theorem State.fetch_prompted (s : State) : (s.fetch).prompted = s.prompted := rfl

/-! ## link -/

@[simp] theorem State.link_regs (s : State) : (s.link).regs = s.regs.set .r7 s.pc := rfl
@[simp] theorem State.link_pc (s : State) : (s.link).pc = s.pc := rfl
@[simp] theorem State.link_ir (s : State) : (s.link).ir = s.ir := rfl
@[simp] theorem State.link_cc (s : State) : (s.link).cc = s.cc := rfl
@[simp] theorem State.link_halted (s : State) : (s.link).halted = s.halted := rfl
@[simp] theorem State.link_paused (s : State) : (s.link).paused = s.paused := rfl
@[simp] theorem State.link_mem (s : State) : (s.link).mem = s.mem := rfl
@[simp] theorem State.link_breakpoints (s : State) : (s.link).breakpoints = s.breakpoints := rfl
@[simp] theorem State.link_labels (s : State) : (s.link).labels = s.labels := rfl
@[simp] theorem State.link_keys (s : State) : (s.link).keys = s.keys := rfl
@[simp] theorem State.link_display (s : State) : (s.link).display = s.display := rfl
@[simp] theorem State.link_unfinished (s : State) : (s.link).unfinished = s.unfinished := rfl
@[simp] theorem State.link_prompted (s : State) : (s.link).prompted = s.prompted := rfl

/-! ## promptOnce and settle, which choose between two states -/

@[simp] theorem State.promptOnce_regs (s : State) : s.promptOnce.regs = s.regs := by
  unfold State.promptOnce; split <;> rfl

@[simp] theorem State.promptOnce_pc (s : State) : s.promptOnce.pc = s.pc := by
  unfold State.promptOnce; split <;> rfl

@[simp] theorem State.promptOnce_ir (s : State) : s.promptOnce.ir = s.ir := by
  unfold State.promptOnce; split <;> rfl

@[simp] theorem State.promptOnce_cc (s : State) : s.promptOnce.cc = s.cc := by
  unfold State.promptOnce; split <;> rfl

@[simp] theorem State.promptOnce_halted (s : State) : s.promptOnce.halted = s.halted := by
  unfold State.promptOnce; split <;> rfl

@[simp] theorem State.promptOnce_paused (s : State) : s.promptOnce.paused = s.paused := by
  unfold State.promptOnce; split <;> rfl

@[simp] theorem State.promptOnce_mem (s : State) : s.promptOnce.mem = s.mem := by
  unfold State.promptOnce; split <;> rfl

@[simp] theorem State.promptOnce_breakpoints (s : State) : s.promptOnce.breakpoints = s.breakpoints := by
  unfold State.promptOnce; split <;> rfl

@[simp] theorem State.promptOnce_labels (s : State) : s.promptOnce.labels = s.labels := by
  unfold State.promptOnce; split <;> rfl

@[simp] theorem State.promptOnce_keys (s : State) : s.promptOnce.keys = s.keys := by
  unfold State.promptOnce; split <;> rfl

theorem State.promptOnce_display (s : State) :
    s.promptOnce.display = if s.prompted then s.display else s.display ++ Config.inPrompt := by
  unfold State.promptOnce; split <;> rfl

@[simp] theorem State.promptOnce_unfinished (s : State) : s.promptOnce.unfinished = s.unfinished := by
  unfold State.promptOnce; split <;> rfl

@[simp] theorem State.promptOnce_prompted (s : State) : s.promptOnce.prompted = true := by
  unfold State.promptOnce; split <;> simp_all

@[simp] theorem State.settle_regs (s t : State) : (s.settle t).regs = t.regs := by
  unfold State.settle; split <;> rfl

theorem State.settle_pc (s t : State) : (s.settle t).pc = if t.unfinished then s.pc else t.pc := by
  unfold State.settle; split <;> rfl

theorem State.settle_ir (s t : State) : (s.settle t).ir = if t.unfinished then s.ir else t.ir := by
  unfold State.settle; split <;> rfl

@[simp] theorem State.settle_cc (s t : State) : (s.settle t).cc = t.cc := by
  unfold State.settle; split <;> rfl

@[simp] theorem State.settle_halted (s t : State) : (s.settle t).halted = t.halted := by
  unfold State.settle; split <;> rfl

@[simp] theorem State.settle_paused (s t : State) : (s.settle t).paused = t.paused := by
  unfold State.settle; split <;> rfl

@[simp] theorem State.settle_mem (s t : State) : (s.settle t).mem = t.mem := by
  unfold State.settle; split <;> rfl

@[simp] theorem State.settle_breakpoints (s t : State) : (s.settle t).breakpoints = t.breakpoints := by
  unfold State.settle; split <;> rfl

@[simp] theorem State.settle_labels (s t : State) : (s.settle t).labels = t.labels := by
  unfold State.settle; split <;> rfl

@[simp] theorem State.settle_keys (s t : State) : (s.settle t).keys = t.keys := by
  unfold State.settle; split <;> rfl

@[simp] theorem State.settle_display (s t : State) : (s.settle t).display = t.display := by
  unfold State.settle; split <;> rfl

@[simp] theorem State.settle_unfinished (s t : State) : (s.settle t).unfinished = t.unfinished := by
  unfold State.settle; split <;> rfl

@[simp] theorem State.settle_prompted (s t : State) : (s.settle t).prompted = t.prompted := by
  unfold State.settle; split <;> rfl

/-- A finished step keeps what its instruction left. -/
theorem State.settle_finished (s : State) {t : State} (h : t.unfinished = false) : s.settle t = t := by
  simp [State.settle, h]

/-! ## Reads after updates -/

@[simp] theorem State.reg_setReg_same (s : State) (r : Reg) (v : Word) : (s.setReg r v).reg r = v := by
  simp [State.reg]

theorem State.reg_setReg_other (s : State) {r q : Reg} (v : Word) (h : q ≠ r) : (s.setReg r v).reg q = s.reg q := by
  simp [State.reg, RegFile.get_set_other _ _ h]

@[simp] theorem State.reg_writeResult_same (s : State) (r : Reg) (v : Word) : (s.writeResult r v).reg r = v := by
  simp [State.reg]

theorem State.reg_writeResult_other (s : State) {r q : Reg} (v : Word) (h : q ≠ r) :
    (s.writeResult r v).reg q = s.reg q := by
  simp [State.reg, RegFile.get_set_other _ _ h]

/-- Reading a register looks at the register file alone. -/
theorem State.reg_congr {s t : State} (h : t.regs = s.regs) (r : Reg) : t.reg r = s.reg r := by
  simp [State.reg, h]

/-- Reading memory looks at the memory alone. -/
theorem State.memRead_congr {s t : State} (h : t.mem = s.mem) (a : Word) : t.memRead a = s.memRead a := by
  simp [State.memRead, h]

/-- `keyIn` answers none exactly while no key is pending. -/
theorem State.keyIn_none {s : State} (h : s.keys = []) : s.keyIn = none := by
  simp [State.keyIn, h]

/-- `keyIn` takes the oldest key and nothing else. -/
theorem State.keyIn_some {s : State} {k : Word} {ks : List Word} (h : s.keys = k :: ks) :
    s.keyIn = some (k, { s with keys := ks }) := by
  simp [State.keyIn, h]

/-- Everything `keyIn` can do. -/
theorem State.keyIn_cases (s : State) :
    (s.keys = [] ∧ s.keyIn = none) ∨
    ∃ k ks, s.keys = k :: ks ∧ s.keyIn = some (k, { s with keys := ks }) := by
  cases h : s.keys with
  | nil => exact .inl ⟨rfl, State.keyIn_none h⟩
  | cons k ks => exact .inr ⟨k, ks, rfl, State.keyIn_some h⟩

end Sys2Proof.Machine
end

