-- ==== Sys2Proof/Laws/Exec.lean ====
section
/-! SUPPORT. What the port instructions and a step can do, said once each, to be cited instead of unfolding them. -/

namespace Sys2Proof.Machine

/-! ## The instructions with more than one outcome -/

/-- GETC with a key pending takes it (R121). -/
theorem execGetc_of_key {s : State} {k : Word} {ks : List Word} (h : s.keys = k :: ks) :
    execGetc s = .next (State.setReg { s with keys := ks } .r0 k) := by
  simp [execGetc, State.keyIn_some h]

/-- GETC without a key waits (R88). -/
theorem execGetc_of_no_key {s : State} (h : s.keys = []) : execGetc s = .next s.suspend := by
  simp [execGetc, State.keyIn_none h]

/-- IN with a key pending takes it and echoes it after the prompt (R124). -/
theorem execIn_of_key {s : State} {k : Word} {ks : List Word} (h : s.keys = k :: ks) :
    execIn s = .next { (State.setReg { s.promptOnce with keys := ks } .r0 k).charOut k with prompted := false } := by
  simp [execIn, State.keyIn_some (s := s.promptOnce) (by simpa using h)]

/-- IN without a key waits, its prompt written (R88, R124). -/
theorem execIn_of_no_key {s : State} (h : s.keys = []) : execIn s = .next s.promptOnce.suspend := by
  simp [execIn, State.keyIn_none (s := s.promptOnce) (by simpa using h)]

/-- PUTS over a string that has its zero word (R123). -/
theorem execPuts_of_ended {s : State} (h : (s.mem.stringAt (s.reg .r0)).2 = true) :
    execPuts s = .next (s.charsOut (s.mem.stringAt (s.reg .r0)).1) := by
  unfold execPuts
  split <;> simp_all

/-- PUTS over a memory without a zero word (R89, D14). -/
theorem execPuts_of_endless {s : State} (h : (s.mem.stringAt (s.reg .r0)).2 = false) :
    execPuts s = .next (s.charsOut (s.mem.stringAt (s.reg .r0)).1).suspend := by
  unfold execPuts
  split <;> simp_all

/-- Everything GETC can do. -/
theorem execGetc_cases {s t : State} (h : execGetc s = .next t) :
    (s.keys = [] ∧ t = s.suspend) ∨
    ∃ k ks, s.keys = k :: ks ∧ t = State.setReg { s with keys := ks } .r0 k := by
  rcases State.keyIn_cases s with ⟨hk, -⟩ | ⟨k, ks, hk, -⟩
  · rw [execGetc_of_no_key hk] at h
    exact .inl ⟨hk, by cases h; rfl⟩
  · rw [execGetc_of_key hk] at h
    exact .inr ⟨k, ks, hk, by cases h; rfl⟩

/-- Everything IN can do. -/
theorem execIn_cases {s t : State} (h : execIn s = .next t) :
    (s.keys = [] ∧ t = s.promptOnce.suspend) ∨
    ∃ k ks, s.keys = k :: ks ∧
      t = { (State.setReg { s.promptOnce with keys := ks } .r0 k).charOut k with prompted := false } := by
  rcases State.keyIn_cases s with ⟨hk, -⟩ | ⟨k, ks, hk, -⟩
  · rw [execIn_of_no_key hk] at h
    exact .inl ⟨hk, by cases h; rfl⟩
  · rw [execIn_of_key hk] at h
    exact .inr ⟨k, ks, hk, by cases h; rfl⟩

/-- Everything PUTS can do. -/
theorem execPuts_cases {s t : State} (h : execPuts s = .next t) :
    ((s.mem.stringAt (s.reg .r0)).2 = true ∧ t = s.charsOut (s.mem.stringAt (s.reg .r0)).1) ∨
    ((s.mem.stringAt (s.reg .r0)).2 = false ∧ t = (s.charsOut (s.mem.stringAt (s.reg .r0)).1).suspend) := by
  cases hc : (s.mem.stringAt (s.reg .r0)).2
  · rw [execPuts_of_endless hc] at h
    exact .inr ⟨rfl, by cases h; rfl⟩
  · rw [execPuts_of_ended hc] at h
    exact .inl ⟨rfl, by cases h; rfl⟩

/-- The general TRAP row does what its vector's row does. -/
theorem execTrap_eq_row (v : BitVec 8) (s : State) : execTrap v s = exec (trapRow v) s := by
  unfold trapRow
  split <;> simp_all [exec, execTrap]

/-! ## A step -/

/-- Everything a step can do: if it answers a next state, the machine was not halted and the decoded instruction
answered one, which the step settles. -/
theorem step_cases {s t : State} (h : step s = .next t) :
    s.halted = false ∧ ∃ u, exec (decode (s.memRead s.pc)) s.fetch = .next u ∧ t = s.settle u := by
  unfold step at h
  split at h
  · exact absurd h (by simp)
  · rename_i hh
    refine ⟨by simpa using hh, ?_⟩
    split at h
    · rename_i u hu
      exact ⟨u, hu, by simpa using h.symm⟩
    · exact absurd h (by simp)
    · exact absurd h (by simp)

/-- A step of a machine that is not halted is its decoded instruction on the fetched state, settled. -/
theorem step_of_exec {s u : State} (hh : s.halted = false)
    (hu : exec (decode (s.memRead s.pc)) s.fetch = .next u) : step s = .next (s.settle u) := by
  simp [step, hh, hu]

end Sys2Proof.Machine
end

