-- ==== Sys2Proof/Laws/PerInstr.lean ====
section
/-! SUPPORT. The family TopBits: the top four bits of an instruction's word are its opcode's number, and the twelve low
bits are its fields (spec 30_encoding.md R51, R53, R54). One lemma per constructor. -/

namespace Sys2Proof.Laws.TopBits

/-- The word of an instruction splits at bit 12 into its opcode's number and its fields. -/
def Statement (i : Instr) : Prop :=
  (encode i).extractLsb' 12 4 = opcodeBits i.opcode ∧ (encode i).extractLsb' 0 12 = i.lowBits

/-- It holds of every instruction. -/
theorem every (i : Instr) : Statement i :=
  ⟨opcodeField_encode i, (extract_encode i (Nat.le_refl 12)).trans BitVec.extractLsb'_eq_self⟩

theorem addReg (dr sr1 sr2 : Reg) : Statement (.addReg dr sr1 sr2) := every _
theorem addImm (dr sr1 : Reg) (imm5 : BitVec 5) : Statement (.addImm dr sr1 imm5) := every _
theorem andReg (dr sr1 sr2 : Reg) : Statement (.andReg dr sr1 sr2) := every _
theorem andImm (dr sr1 : Reg) (imm5 : BitVec 5) : Statement (.andImm dr sr1 imm5) := every _
theorem not (dr sr1 : Reg) : Statement (.not dr sr1) := every _
theorem lea (dr : Reg) (off9 : BitVec 9) : Statement (.lea dr off9) := every _
theorem ld (dr : Reg) (off9 : BitVec 9) : Statement (.ld dr off9) := every _
theorem ldi (dr : Reg) (off9 : BitVec 9) : Statement (.ldi dr off9) := every _
theorem ldr (dr base : Reg) (off6 : BitVec 6) : Statement (.ldr dr base off6) := every _
theorem st (sr : Reg) (off9 : BitVec 9) : Statement (.st sr off9) := every _
theorem sti (sr : Reg) (off9 : BitVec 9) : Statement (.sti sr off9) := every _
theorem str (sr base : Reg) (off6 : BitVec 6) : Statement (.str sr base off6) := every _
theorem br (n z p : Bool) (off9 : BitVec 9) : Statement (.br n z p off9) := every _
theorem jmp (base : Reg) : Statement (.jmp base) := every _
theorem jsr (off11 : BitVec 11) : Statement (.jsr off11) := every _
theorem jsrr (base : Reg) : Statement (.jsrr base) := every _
theorem trap (vector : BitVec 8) : Statement (.trap vector) := every _
theorem getc : Statement (.getc) := every _
theorem out : Statement (.out) := every _
theorem puts : Statement (.puts) := every _
theorem inChar : Statement (.inChar) := every _
theorem putsp : Statement (.putsp) := every _
theorem halt : Statement (.halt) := every _
theorem trapOther (vector : BitVec 8) : Statement (.trapOther vector) := every _
theorem rti : Statement (.rti) := every _
theorem res : Statement (.res) := every _

end Sys2Proof.Laws.TopBits
end

