-- ==== Sys2Proof/Tests/Slice0.lean ====
section
/-! SUPPORT. Tests and witnesses. Expected results are those of spec 95_test_vectors.md (V1 to V12) or are worked out by
hand from the rules of the spec; each decoding test writes its word out field by field as 30_encoding.md R53 gives it.
The second half shows, for each statement with hypotheses, concrete values that meet them together. -/

namespace Sys2Proof.Tests

open Sys2Proof Sys2Proof.Machine

/-! ## Well-formedness: the ill-formed terms are refused (R59, R61) -/

theorem test_general_trap_ill_formed : WellFormed (.trap 0x25) = false ∧ WellFormed (.trap 0x00) = false := by decide
theorem test_named_vector_ill_formed_as_other :
    WellFormed (.trapOther 0x20) = false ∧ WellFormed (.trapOther 0x25) = false := by decide
theorem test_other_vectors_well_formed :
    WellFormed (.trapOther 0x1F) = true ∧ WellFormed (.trapOther 0x26) = true := by decide

/-! ## Decoding: a word for every constructor, its bits written out from R53 and R54 -/

theorem test_decode_addReg : decode 0b0001_010_011_0_00_100 = .addReg .r2 .r3 .r4 := by decide
theorem test_decode_addImm : decode 0b0001_001_000_1_11111 = .addImm .r1 .r0 0b11111 := by decide
theorem test_decode_andReg : decode 0b0101_110_001_0_00_111 = .andReg .r6 .r1 .r7 := by decide
theorem test_decode_andImm : decode 0b0101_001_010_1_10000 = .andImm .r1 .r2 0b10000 := by decide
theorem test_decode_not : decode 0b1001_001_000_111111 = .not .r1 .r0 := by decide
theorem test_decode_lea : decode 0b1110_011_111111110 = .lea .r3 0b111111110 := by decide
theorem test_decode_ld : decode 0b0010_001_000000010 = .ld .r1 0b000000010 := by decide
theorem test_decode_ldi : decode 0b1010_100_000000101 = .ldi .r4 0b000000101 := by decide
theorem test_decode_ldr : decode 0b0110_011_010_000001 = .ldr .r3 .r2 0b000001 := by decide
theorem test_decode_st : decode 0b0011_011_111111111 = .st .r3 0b111111111 := by decide
theorem test_decode_sti : decode 0b1011_101_000000011 = .sti .r5 0b000000011 := by decide
theorem test_decode_str : decode 0b0111_101_010_000010 = .str .r5 .r2 0b000010 := by decide
theorem test_decode_br : decode 0b0000_1_0_0_000000101 = .br true false false 0b000000101 := by decide
theorem test_decode_jmp : decode 0b1100_000_111_000000 = .jmp .r7 := by decide
theorem test_decode_jsr : decode 0b0100_1_10000000001 = .jsr 0b10000000001 := by decide
theorem test_decode_jsrr : decode 0b0100_0_00_010_000000 = .jsrr .r2 := by decide
theorem test_decode_trap : decodeOpcode 0b1111_0000_00100101 = .trap 0b00100101 := by decide
theorem test_decode_getc : decode 0b1111_1111_00100000 = .getc := by decide
theorem test_decode_out : decode 0b1111_0000_00100001 = .out := by decide
theorem test_decode_puts : decode 0b1111_0000_00100010 = .puts := by decide
theorem test_decode_inChar : decode 0b1111_0000_00100011 = .inChar := by decide
theorem test_decode_putsp : decode 0b1111_0000_00100100 = .putsp := by decide
theorem test_decode_halt : decode 0b1111_1111_00100101 = .halt := by decide
theorem test_decode_trapOther : decode 0b1111_0000_11111111 = .trapOther 0b11111111 := by decide
theorem test_decode_rti : decode 0b1000_101010111100 = .rti := by decide
theorem test_decode_res : decode 0b1101_111111111111 = .res := by decide

/-- The words an assembler writes (R57): the encoder gives them back. -/
theorem test_encode_words :
    encode (.not .r1 .r0) = 0x923F ∧ encode .halt = 0xF025 ∧ encode (.jmp .r7) = 0xC1C0 ∧
    encode (.jsrr .r2) = 0x4080 ∧ encode (.str .r5 .r2 2) = 0x7A82 ∧ encode (.br false false true 0x1FD) = 0x03FD := by
  decide

/-- The decoder as the opcode table numbers its bits: two bytes, or nothing beyond a word. -/
theorem test_table_word :
    decodeTableWord 16 0xF025 = some .halt ∧ decodeTableWord 16 0x14C4 = some (.addReg .r2 .r3 .r4) ∧
    decodeTableWord 24 0x0014C4 = none := by decide

/-! ## One step of each instruction (95_test_vectors.md) -/

/-- The reset state with some registers set, at address 0x3000 with CC = P, and a word to execute there. -/
def placed (w : Word) (regs : List (Reg × Word) := []) (words : List (Word × Word) := []) (pc : Word := 0x3000) :
    State :=
  let s : State := { State.reset with pc := pc, cc := .p }
  let s := regs.foldl (fun s r => s.setReg r.1 r.2) s
  let s := words.foldl (fun s m => s.memWrite m.1 m.2) s
  s.withFetchWord 16 w.toNat

/-- What one step leaves of a state, seen through `f`. -/
def after {α : Type} (f : State → α) (s : State) : Option α :=
  match step s with
  | .next t => some (f t)
  | .fault _ => none
  | .refused _ => none

/-- R90: `0x7FFF + 0x0001` is negative; the result of R15's note. -/
theorem test_add_overflows :
    after (fun t => (t.reg .r2, t.cc, t.pc)) (placed 0x14C4 [(.r3, 0x7FFF), (.r4, 1)]) = some (0x8000, .n, 0x3001) := by
  decide
/-- R90: the destination is also both sources; `0x8000 + 0x8000` wraps to zero. -/
theorem test_add_same_register :
    after (fun t => (t.reg .r1, t.cc)) (placed 0x1241 [(.r1, 0x8000)]) = some (0, .z) := by decide
/-- R91: immediate -1. -/
theorem test_addImm_minus_one :
    after (fun t => (t.reg .r1, t.cc)) (placed 0x123F [(.r0, 0)]) = some (0xFFFF, .n) := by decide
/-- R92. -/
theorem test_and_register :
    after (fun t => (t.reg .r2, t.cc)) (placed 0x54C4 [(.r3, 0xFF0F), (.r4, 0x0FF0)]) = some (0x0F00, .p) := by decide
/-- R93: the immediate 0x10 is 0xFFF0. -/
theorem test_andImm_extends :
    after (fun t => (t.reg .r1, t.cc)) (placed 0x52B0 [(.r2, 0xFFFF)]) = some (0xFFF0, .n) := by decide
/-- R94, P3: the complement of 0x3006. -/
theorem test_not : after (fun t => (t.reg .r1, t.cc)) (placed 0x923F [(.r0, 0x3006)]) = some (0xCFF9, .n) := by decide
/-- V4 row 6: LEA at the top of memory. -/
theorem test_lea_wraps :
    after (fun t => (t.reg .r0, t.cc, t.pc)) (placed 0xE1FF [] [] 0xFFFF) = some (0xFFFF, .n, 0) := by decide
/-- V5 row 5: LD with an address below zero. -/
theorem test_ld_wraps :
    after (fun t => (t.reg .r7, t.cc, t.pc)) (placed 0x2FFE [] [(0xFFFF, 0x8000)] 0) = some (0x8000, .n, 1) := by decide
/-- V5 row 7. -/
theorem test_ldi :
    after (fun t => (t.reg .r4, t.cc)) (placed 0xA805 [] [(0x3006, 0x4000), (0x4000, 0x7FFF)]) = some (0x7FFF, .p) := by
  decide
/-- V5 row 11: base and destination the same. -/
theorem test_ldr_same_register :
    after (fun t => (t.reg .r1, t.cc)) (placed 0x6240 [(.r1, 0x5000)] [(0x5000, 0x8001)]) = some (0x8001, .n) := by decide
/-- V6 row 2: ST over itself; IR stays. -/
theorem test_st_over_itself :
    after (fun t => (t.memRead 0x3000, t.ir, t.cc)) (placed 0x37FF [(.r3, 0xF025)]) = some (0xF025, 0x37FF, .p) := by
  decide
/-- V6 row 7: STI overwrites its own pointer. -/
theorem test_sti_over_pointer :
    after (fun t => t.memRead 0x3001) (placed 0xB400 [(.r2, 0x7777)] [(0x3001, 0x3001)]) = some 0x7777 := by decide
/-- V6 row 10: STR with an address below zero. -/
theorem test_str_wraps :
    after (fun t => t.memRead 0xFFFF) (placed 0x71FF [(.r0, 0x0042), (.r7, 0)]) = some 0x0042 := by decide
/-- V7, CC = P: BRp is taken, BRnz is not, the all-zero word is never. -/
theorem test_br :
    after State.pc (placed 0x0205) = some 0x3006 ∧ after State.pc (placed 0x0C05) = some 0x3001 ∧
    after State.pc (placed 0x0000) = some 0x3001 := by decide
/-- V7: a branch backwards past address zero. -/
theorem test_br_wraps : after State.pc (placed 0x0FFE [] [] 0) = some 0xFFFF := by decide
/-- V8 row 2. -/
theorem test_jmp : after State.pc (placed 0xCEBF [(.r2, 0xFFFF)]) = some 0xFFFF := by decide
/-- V8 rows 4 and 6; CC stays. -/
theorem test_jsr :
    after (fun t => (t.reg .r7, t.pc, t.cc)) (placed 0x4801 [(.r7, 0xAAAA)]) = some (0x3001, 0x3002, .p) ∧
    after (fun t => (t.reg .r7, t.pc)) (placed 0x4C00) = some (0x3001, 0x2C01) := by decide
/-- V8 rows 9 and 11. -/
theorem test_jsrr :
    after (fun t => (t.reg .r7, t.pc)) (placed 0x4080 [(.r2, 0x5000)]) = some (0x3001, 0x5000) ∧
    after (fun t => (t.reg .r7, t.pc)) (placed 0x41C0 [(.r7, 0x5000)]) = some (0x3001, 0x3001) := by decide
/-- V9 row 1: GETC takes the key, writes nothing, and leaves CC. -/
theorem test_getc :
    after (fun t => (t.reg .r0, t.cc, t.keys, t.display)) ((placed 0xF020 [(.r0, 0xFFFF)]).deliverKey 0x0041) =
      some (0x0041, .p, [], []) := by decide
/-- V9 row 3: without a key the step does not complete; PC and IR are as before it. -/
theorem test_getc_waits :
    after (fun t => (t.unfinished, t.pc, t.ir)) (placed 0xF020) = some (true, 0x3000, 0) := by decide
/-- V9 row 5: all 16 bits. -/
theorem test_out : after State.display (placed 0xF021 [(.r0, 0x1241)]) = some [0x1241] := by decide
/-- V9 row 8: the walk wraps and R0 keeps its value. -/
theorem test_puts_wraps :
    after (fun t => (t.display, t.reg .r0, t.unfinished))
      (placed 0xF022 [(.r0, 0xFFFF)] [(0xFFFF, 0x0041), (0x0000, 0x0042)]) =
      some ([0x0041, 0x0042], 0xFFFF, false) := by decide
/-- V9 row 10: the terminator test is on all 16 bits. -/
theorem test_puts_whole_word :
    after State.display (placed 0xF022 [(.r0, 0x4000)] [(0x4000, 0x0100), (0x4001, 0x0041)]) =
      some [0x0100, 0x0041] := by decide
/-- V9 row 11: the key reaches R0 and is consumed; no wait is left. -/
theorem test_in :
    after (fun t => (t.reg .r0, t.keys, t.unfinished, t.prompted)) ((placed 0xF023).deliverKey 0x0079) =
      some (0x0079, [], false, false) := by decide
/-- V9 row 12. -/
theorem test_putsp :
    after (fun t => (t.display, t.pc, t.reg .r0)) (placed 0xF024 [(.r0, 0x4000)] [(0x4000, 0x4948)]) =
      some ([], 0x3001, 0x4000) := by decide
/-- V9 row 13. -/
theorem test_halt : after (fun t => (t.halted, t.pc, t.ir)) (placed 0xF025) = some (true, 0x3001, 0xF025) := by decide
/-- V9 rows 14 to 16. -/
theorem test_no_ops :
    after (fun t => (t.pc, t.ir)) (placed 0xF0FF) = some (0x3001, 0xF0FF) ∧
    after (fun t => (t.pc, t.ir)) (placed 0x8ABC) = some (0x3001, 0x8ABC) ∧
    after (fun t => (t.pc, t.ir)) (placed 0xDFFF) = some (0x3001, 0xDFFF) := by decide
/-- The general TRAP row does what its vector's row does (R120). -/
theorem test_trap_row : exec (.trap 0x21) (placed 0xF021) = exec .out (placed 0xF021) := rfl

/-- V12: the image of the document's program, and its refused neighbours. -/
theorem test_load :
    (match State.reset.load [0x30, 0x00, 0xE0, 0x00, 0xF0, 0x25] with
      | .ok t => (t.memRead 0x3000, t.memRead 0x3001, t.pc)
      | .error _ => (0, 0, 0)) = (0xE000, 0xF025, 0x3000) := by decide
theorem test_load_refuses :
    (match State.reset.load [0x30, 0x00, 0xE0] with | .ok _ => none | .error e => some e) = some .midWord ∧
    (match State.reset.load [] with | .ok _ => none | .error e => some e) = some .noOrigin ∧
    (match State.reset.load [0xFF, 0xFF, 0x12, 0x34, 0x56, 0x78] with | .ok _ => none | .error e => some e) =
      some .pastEnd := by decide

/-- R19: the slot the host sees: value, own address, breakpoint, label. -/
theorem test_slot :
    ((placed 0xF025).setBreakpoint 0x3000 true).slotAt 0x3000 = ⟨0xF025, 0x3000, true, none⟩ ∧
    (((placed 0xF025).attachLabel 0x3000 (some "LOOP")).attachLabel 0x3000 none).slotAt 0x3000 =
      ⟨0xF025, 0x3000, false, none⟩ := by decide

/-! ## Witnesses: values that meet the hypotheses of each statement together

The name says which statement; a statement without hypotheses has none. -/

theorem witness_DecodeOfEncodeIsTheInstruction :
    WellFormed (.addReg .r2 .r3 .r4) = true ∧ WellFormed (.trapOther 0x1F) = true ∧
    WellFormed (.trapOther 0x26) = true ∧ WellFormed (.trapOther 0xFF) = true := by decide

theorem witness_EveryWordHasADefinedEffect :
    (∃ t, exec (decode 0xF025) State.reset = .next t ∧ t.halted = true) ∧
    opcodeMap (opcodeField 0x8000) = .rti ∧ opcodeMap (opcodeField 0xDFFF) = .reserved :=
  ⟨⟨_, rfl, rfl⟩, by decide, by decide⟩

theorem witness_ResultSetsConditionCode :
    ∃ t, ccDestination (.addImm .r1 .r0 0x1F) = some .r1 ∧ exec (.addImm .r1 .r0 0x1F) State.reset = .next t :=
  ⟨_, rfl, rfl⟩

/-- The ends of the two windows, and the six executions. -/
theorem witness_EffectiveAddressesReachTheirWindow :
    (-256 ≤ ((0x2F01 : Word) - 0x3001).toInt ∧ ((0x2F01 : Word) - 0x3001).toInt ≤ 255) ∧
    (-256 ≤ ((0x3100 : Word) - 0x3001).toInt ∧ ((0x3100 : Word) - 0x3001).toInt ≤ 255) ∧
    (-32 ≤ ((0xFFE0 : Word) - 0).toInt ∧ ((0xFFE0 : Word) - 0).toInt ≤ 31) ∧
    (-32 ≤ ((0x001F : Word) - 0).toInt ∧ ((0x001F : Word) - 0).toInt ≤ 31) ∧
    (∃ t, exec (.sti .r1 0x100) State.reset = .next t) ∧ (∃ t, exec (.str .r1 .r2 0x20) State.reset = .next t) ∧
    ∃ t, exec (.ldr .r1 .r2 0x20) State.reset = .next t ∧ Reg.r1 ≠ .r2 :=
  ⟨by decide, by decide, by decide, by decide, ⟨_, rfl⟩, ⟨_, rfl⟩, _, rfl, by decide⟩

/-! The word that selects each instruction, in the statements of the instructions. -/

theorem witness_AddRegisterWritesTheSum : opcodeField 0x14DC = 0x1 ∧ immediateBit 0x14DC = false := by decide
theorem witness_AddImmediateWritesTheSum : opcodeField 0x123F = 0x1 ∧ immediateBit 0x123F = true := by decide
theorem witness_AndRegisterWritesTheConjunction : opcodeField 0x54DC = 0x5 ∧ immediateBit 0x54DC = false := by decide
/-- Also the bits at and around the sign bit of the immediate. -/
theorem witness_AndImmediateWritesTheConjunction :
    opcodeField 0x52B0 = 0x5 ∧ immediateBit 0x52B0 = true ∧ 0 < 16 ∧ 4 < 16 ∧ 15 < 16 := by decide
theorem witness_NotWritesTheComplement : opcodeField 0x9200 = 0x9 := by decide
theorem witness_LeaWritesTheAddress : opcodeField 0xE100 = 0xE := by decide
theorem witness_LdLoadsFromThePcWindow : opcodeField 0x2FFE = 0x2 := by decide
theorem witness_LdiLoadsThroughThePointer : opcodeField 0xA805 = 0xA := by decide
theorem witness_LdrLoadsFromTheBaseWindow : opcodeField 0x6240 = 0x6 := by decide
theorem witness_StStoresInThePcWindow : opcodeField 0x37FF = 0x3 ∧ (placed 0x37FF).mem.wf = true := by decide
theorem witness_StiStoresThroughThePointer :
    opcodeField 0xB400 = 0xB ∧ (placed 0xB400 [] [(0x3001, 0x3001)]).mem.wf = true := by decide
theorem witness_StrStoresInTheBaseWindow : opcodeField 0x71FF = 0x7 ∧ (placed 0x71FF).mem.wf = true := by decide

/-- Each condition bit matching, and none. -/
theorem witness_BrJumpsWhenAConditionBitMatches :
    opcodeField 0x0005 = 0x0 ∧
    (let s : State := { State.reset with cc := .n }
     (true = true ∧ s.cc = .n) ∨ (false = true ∧ s.cc = .z) ∨ (false = true ∧ s.cc = .p)) ∧
    (let s : State := { State.reset with cc := .z }
     (false = true ∧ s.cc = .n) ∨ (true = true ∧ s.cc = .z) ∨ (false = true ∧ s.cc = .p)) ∧
    (let s : State := { State.reset with cc := .p }
     (false = true ∧ s.cc = .n) ∨ (false = true ∧ s.cc = .z) ∨ (true = true ∧ s.cc = .p)) ∧
    (let s : State := { State.reset with cc := .z }
     ¬ ((true = true ∧ s.cc = .n) ∨ (false = true ∧ s.cc = .z) ∨ (true = true ∧ s.cc = .p))) := by decide

theorem witness_JmpJumpsToTheRegister : opcodeField 0xCEBF = 0xC := by decide
theorem witness_JsrLinksAndJumps : opcodeField 0x4C00 = 0x4 ∧ jsrModeBit 0x4C00 = true := by decide
theorem witness_JsrrLinksThenReadsTheTarget :
    opcodeField 0x46FF = 0x4 ∧ jsrModeBit 0x46FF = false ∧ Reg.r3 ≠ .r7 ∧ Reg.r7 = .r7 := by decide

theorem witness_TrapDispatchesOnItsVector :
    opcodeField 0xFF25 = 0xF ∧ (0x1F : BitVec 8).toNat < 0x20 ∧ 0x25 < (0x26 : BitVec 8).toNat ∧
    ((placed 0xF022).deliverKey 0x41).unfinished = false ∧ ((placed 0xF022).deliverKey 0x41).keys ≠ [] ∧
    ∃ a, ((placed 0xF022).deliverKey 0x41).memRead a = 0 :=
  ⟨by decide, by decide, by decide, rfl, by decide, 0, by decide⟩

theorem witness_GetcTakesAKey :
    opcodeField 0xFF20 = 0xF ∧ vectorField 0xFF20 = 0x20 ∧
    ((placed 0xFF20).deliverKey 0x000A).keys = 0x000A :: [] := by decide
theorem witness_OutWritesOneCharacter : opcodeField 0xF021 = 0xF ∧ vectorField 0xF021 = 0x21 := by decide

/-- A string of two words that wraps, and an empty one; the longest string is `witness_longest_string`. -/
theorem witness_PutsWritesTheString :
    opcodeField 0xF022 = 0xF ∧ vectorField 0xF022 = 0x22 ∧
    (let s := placed 0xF022 [(.r0, 0xFFFF)] [(0xFFFF, 0x0041), (0x0000, 0x0042)]
     2 < 65536 ∧ (∀ j < 2, s.memRead (s.reg .r0 + BitVec.ofNat 16 j) ≠ 0) ∧
       s.memRead (s.reg .r0 + BitVec.ofNat 16 2) = 0) ∧
    (let s := placed 0xF022 [(.r0, 0x4000)]
     0 < 65536 ∧ (∀ j < 0, s.memRead (s.reg .r0 + BitVec.ofNat 16 j) ≠ 0) ∧
       s.memRead (s.reg .r0 + BitVec.ofNat 16 0) = 0) := by decide

theorem witness_InPromptsTakesAKeyAndEchoes :
    opcodeField 0xF023 = 0xF ∧ vectorField 0xF023 = 0x23 ∧
    (let s := (placed 0xF023).deliverKey 0x0079
     s.keys = 0x0079 :: [] ∧ s.prompted = false) ∧
    (let s : State := { (placed 0xF023).deliverKey 0x0079 with unfinished := true, prompted := true }
     s.keys = 0x0079 :: [] ∧ s.prompted = true) := by decide
theorem witness_HaltWritesTheBannerAndHalts : opcodeField 0xFF25 = 0xF ∧ vectorField 0xFF25 = 0x25 := by decide

/-- RTI, reserved, and the vectors at the edges of the three ranges. -/
theorem witness_NoOpsChangeOnlyIrAndPc :
    (placed 0x8ABC).halted = false ∧ (placed 0x8ABC).unfinished = false ∧
    ((placed 0x8ABC).memRead (placed 0x8ABC).pc).toNat / 4096 = 0x8 ∧
    ((placed 0xDFFF).memRead (placed 0xDFFF).pc).toNat / 4096 = 0xD ∧
    ((placed 0xF01F).memRead (placed 0xF01F).pc).toNat / 4096 = 0xF ∧
    ((placed 0xF01F).memRead (placed 0xF01F).pc).toNat % 256 < 0x20 ∧
    0x23 < ((placed 0xF024).memRead (placed 0xF024).pc).toNat % 256 ∧
    ((placed 0xF024).memRead (placed 0xF024).pc).toNat % 256 ≠ 0x25 ∧
    0x23 < ((placed 0xF026).memRead (placed 0xF026).pc).toNat % 256 := by decide

/-! The step. -/

/-- One finished and one unfinished execution. -/
theorem witness_StepRunsTheDecodedInstruction :
    ((placed 0x14C4).halted = false ∧ decode ((placed 0x14C4).memRead (placed 0x14C4).pc) = .addReg .r2 .r3 .r4 ∧
      ∃ u, exec (.addReg .r2 .r3 .r4) (placed 0x14C4).fetch = .next u ∧ u.unfinished = false) ∧
    ((placed 0xF020).halted = false ∧ decode ((placed 0xF020).memRead (placed 0xF020).pc) = .getc ∧
      ∃ u, exec .getc (placed 0xF020).fetch = .next u ∧ u.unfinished = true) :=
  ⟨⟨rfl, by decide, _, rfl, rfl⟩, rfl, by decide, _, rfl, rfl⟩

theorem witness_StepStopsExactlyWhenHalted :
    State.halted { State.reset with halted := true } = true ∧ State.reset.halted = false := ⟨rfl, rfl⟩

/-- What `step` leaves of a state that it can step. -/
def next (s : State) : State :=
  match step s with
  | .next t => t
  | .fault _ => s
  | .refused _ => s

/-- `next` is the next state of any machine that is not halted. -/
theorem step_next {s : State} (h : (match step s with | .next _ => true | _ => false) = true) :
    step s = .next (next s) := by
  unfold next
  split at h
  · rename_i t ht; rw [ht]
  · exact absurd h (by simp)

/-- At the top of memory, and after a load. -/
theorem witness_PcAfterAStepFollowsTheTable :
    (step (placed 0xF021 [] [] 0xFFFF) = .next (next (placed 0xF021 [] [] 0xFFFF)) ∧
      (next (placed 0xF021 [] [] 0xFFFF)).unfinished = false) ∧
    (step (placed 0x41C0) = .next (next (placed 0x41C0)) ∧ (next (placed 0x41C0)).unfinished = false) ∧
    ((∀ n z p off9, Instr.halt ≠ .br n z p off9) ∧ (∀ base, Instr.halt ≠ .jmp base) ∧
      (∀ off11, Instr.halt ≠ .jsr off11) ∧ ∀ base, Instr.halt ≠ .jsrr base) ∧
    ∃ t, State.reset.load [0x30, 0x00] = .ok t :=
  ⟨⟨step_next (by decide), by decide⟩, ⟨step_next (by decide), by decide⟩, by simp, _, rfl⟩

theorem witness_IrHoldsTheExecutedWord :
    step (placed 0x37FF) = .next (next (placed 0x37FF)) ∧ (next (placed 0x37FF)).unfinished = false ∧
    (∃ t, State.reset.load [0x30, 0x00] = .ok t) ∧ ∃ t, exec (.st .r3 0x1FF) (placed 0x37FF) = .next t :=
  ⟨step_next (by decide), by decide, ⟨_, rfl⟩, _, rfl⟩

/-- An instruction with a destination for CC, and one without that is no BR. -/
theorem witness_OnlySevenInstructionsWriteCc :
    (∃ t, exec (.lea .r0 0x1FF) State.reset = .next t ∧ ccDestination (.lea .r0 0x1FF) = some .r0 ∧
      ∀ n z p off9, Instr.lea .r0 0x1FF ≠ .br n z p off9) ∧
    ∃ t, exec (.jsr 0x400) State.reset = .next t ∧ ccDestination (.jsr 0x400) = none ∧
      ∀ n z p off9, Instr.jsr 0x400 ≠ .br n z p off9 :=
  ⟨⟨_, rfl, rfl, by simp⟩, _, rfl, rfl, by simp⟩

theorem witness_RegistersReadAndWrittenFollowTheTable :
    (∃ t, exec (.str .r1 .r2 0) State.reset = .next t ∧ Reg.r1 ∉ regsWritten (.str .r1 .r2 0)) ∧
    ∃ t, exec (.jsrr .r2) State.reset = .next t ∧ Reg.r7 ∉ regsRead (.jsrr .r2) :=
  ⟨⟨_, rfl, by decide⟩, _, rfl, by decide⟩

theorem witness_HaltedIsSetByHaltAlone :
    step (placed 0xF025) = .next (next (placed 0xF025)) ∧ (∃ t, exec .halt State.reset = .next t) ∧
    State.halted { State.reset with halted := true } = true ∧ ∃ t, State.reset.load [0x30, 0x00] = .ok t :=
  ⟨step_next (by decide), ⟨_, rfl⟩, rfl, _, rfl⟩

/-- A byte that a store changes, and a step that stores nothing. -/
theorem witness_OnlyStoresChangeMemory :
    (step (placed 0x37FF) = .next (next (placed 0x37FF)) ∧
      (next (placed 0x37FF)).mem.readByte 0x6000 ≠ (placed 0x37FF).mem.readByte 0x6000) ∧
    (step (placed 0x14C4) = .next (next (placed 0x14C4)) ∧
      storeAddress (decode ((placed 0x14C4).memRead (placed 0x14C4).pc)) (placed 0x14C4).fetch = none) :=
  ⟨⟨step_next (by decide), by decide⟩, step_next (by decide), by decide⟩

theorem witness_HostBitsChangeNoStep :
    step (placed 0x14C4) = .next (next (placed 0x14C4)) ∧
    step { State.reset with halted := true } = .fault .halted := ⟨step_next (by decide), rfl⟩

/-- The general TRAP, and one of the four that leave all registers alone. -/
theorem witness_TrapsLeaveRegistersCcAndMemoryAlone :
    ((Instr.trap 0x20).opcode = .trap ∧ ∃ t, exec (.trap 0x20) State.reset = .next t) ∧
    (Instr.puts.opcode = .trap ∧ ∃ t, exec .puts State.reset = .next t) :=
  ⟨⟨rfl, _, rfl⟩, rfl, _, rfl⟩

/-- TRAP 0x21 uses no key, GETC no display. -/
theorem witness_PortsAreUsedByTheirTrapsAlone :
    (resolveTrap (.trap 0x21) ≠ .getc ∧ resolveTrap (.trap 0x21) ≠ .inChar ∧
      ∃ t, exec (.trap 0x21) State.reset = .next t) ∧
    (resolveTrap .getc ≠ .out ∧ resolveTrap .getc ≠ .puts ∧ resolveTrap .getc ≠ .inChar ∧ resolveTrap .getc ≠ .halt ∧
      ∃ t, exec .getc (State.reset.deliverKey 0x41) = .next t) :=
  ⟨⟨by decide, by decide, _, rfl⟩, by decide, by decide, by decide, by decide, _, rfl⟩

/-! Unfinished steps. -/

theorem witness_WaitingChangesOnlyThePrompt :
    ((placed 0xF020).halted = false ∧ (placed 0xF020).keys = [] ∧
      decode ((placed 0xF020).memRead (placed 0xF020).pc) = .getc) ∧
    ((placed 0xF023).halted = false ∧ (placed 0xF023).keys = [] ∧
      decode ((placed 0xF023).memRead (placed 0xF023).pc) = .inChar) := by decide

theorem witness_AKeyEndsTheWait :
    ((placed 0xF020).halted = false ∧ (placed 0xF020).prompted = false ∧ (placed 0xF020).keys = [] ∧
      decode ((placed 0xF020).memRead (placed 0xF020).pc) = .getc ∧
      step (placed 0xF020) = .next (next (placed 0xF020))) ∧
    ((placed 0xF023).halted = false ∧ (placed 0xF023).prompted = false ∧ (placed 0xF023).keys = [] ∧
      decode ((placed 0xF023).memRead (placed 0xF023).pc) = .inChar ∧
      step (placed 0xF023) = .next (next (placed 0xF023))) :=
  ⟨⟨rfl, rfl, rfl, by decide, step_next (by decide)⟩, rfl, rfl, rfl, by decide, step_next (by decide)⟩

/-- `n` bytes from position `q` on, 0xF0 at even positions and 0x22 at odd ones. -/
def putsBytes : Nat → Nat → Memory
  | 0, _ => []
  | n + 1, q => (q, if q % 2 = 0 then 0xF0 else 0x22) :: putsBytes n (q + 1)

theorem putsBytes_read (p : Nat) : ∀ n q, q ≤ p → p < q + n →
    (putsBytes n q).readByte p = if p % 2 = 0 then 0xF0 else 0x22 := by
  intro n
  induction n with
  | zero => intro q h1 h2; omega
  | succ n ih =>
    intro q h1 h2
    rw [putsBytes, Memory.readByte]
    split
    · subst_vars; rfl
    · exact ih (q + 1) (by omega) (by omega)

theorem putsBytes_wf : ∀ n q, q + n ≤ Memory.size → Memory.wfFrom q (putsBytes n q) = true := by
  intro n
  induction n with
  | zero => intro q _; rfl
  | succ n ih =>
    intro q h
    refine Memory.wfFrom_cons.mpr ⟨Nat.le_refl q, by omega, ?_, ih (q + 1) (by omega)⟩
    split <;> decide

/-- Every word of memory is PUTS, so no word is zero. -/
def endless : State := { State.reset with mem := putsBytes Memory.size 0 }

theorem endless_memRead (a : Word) : endless.memRead a = 0xF022 := by
  have h := Memory.position_lt a
  have h1 := putsBytes_read (Memory.position a) Memory.size 0 (Nat.zero_le _) (by omega)
  have h2 := putsBytes_read (Memory.position a + 1) Memory.size 0 (Nat.zero_le _) (by omega)
  rw [if_pos (by simp [Memory.position])] at h1
  rw [if_neg (by simp only [Memory.position]; omega)] at h2
  show wordOfBytes _ _ = _
  rw [show endless.mem = putsBytes Memory.size 0 from rfl, h1, h2]
  decide

theorem witness_PutsWithoutAZeroWordNeverCompletes :
    endless.mem.wf = true ∧ endless.halted = false ∧ decode (endless.memRead endless.pc) = .puts ∧
    ∀ a, endless.memRead a ≠ 0 :=
  ⟨putsBytes_wf _ _ (Nat.le_refl _), rfl, by rw [endless_memRead]; decide,
    fun a => by rw [endless_memRead]; decide⟩

/-- The longest string that ends: 65,535 words from address 1 on, and the zero word at address 0. -/
theorem witness_longest_string :
    let s := (endless.memWrite 0 0).setReg .r0 1
    65535 < 65536 ∧ (∀ j < 65535, s.memRead (s.reg .r0 + BitVec.ofNat 16 j) ≠ 0) ∧
      s.memRead (s.reg .r0 + BitVec.ofNat 16 65535) = 0 := by
  refine ⟨by decide, fun j hj => ?_, ?_⟩
  · have hne : (1 : Word) + BitVec.ofNat 16 j ≠ 0 := by
      intro h
      have := congrArg BitVec.toNat h
      simp at this
      omega
    show (endless.mem.write 0 0).read (1 + BitVec.ofNat 16 j) ≠ 0
    rw [Memory.read_write_other 0 endless.mem hne, show endless.mem.read _ = _ from endless_memRead _]
    decide
  · exact Memory.read_write_same 0 0 witness_PutsWithoutAZeroWordNeverCompletes.1

/-! Memory, load and reset. -/

theorem witness_MemoryReadsTheLatestWrite : (placed 0xF025).mem.wf = true := by decide

/-- The next instruction, and the store's own address. -/
theorem witness_TheNextFetchSeesTheStore :
    ((placed 0x3200 [(.r1, 0xF025)]).mem.wf = true ∧
      step (placed 0x3200 [(.r1, 0xF025)]) = .next (next (placed 0x3200 [(.r1, 0xF025)])) ∧
      decode ((placed 0x3200 [(.r1, 0xF025)]).memRead (placed 0x3200 [(.r1, 0xF025)]).pc) = .st .r1 0 ∧
      step (next (placed 0x3200 [(.r1, 0xF025)])) = .next (next (next (placed 0x3200 [(.r1, 0xF025)]))) ∧
      (next (next (placed 0x3200 [(.r1, 0xF025)]))).unfinished = false) ∧
    ((placed 0x37FF).mem.wf = true ∧ step (placed 0x37FF) = .next (next (placed 0x37FF)) ∧
      decode ((placed 0x37FF).memRead (placed 0x37FF).pc) = .st .r3 0x1FF) :=
  ⟨⟨by decide, step_next (by decide), by decide, step_next (by decide), by decide⟩, by decide, step_next (by decide),
    by decide⟩

/-- Two words, no word, the last word of memory with an address before the image, an odd length, nothing. -/
theorem witness_LoadPlacesTheImage :
    State.reset.mem.wf = true ∧
    ([0x30, 0x00, 0xE0, 0x00, 0xF0, 0x25] : List Byte).length = 2 * (2 + 1) ∧
    (imageWord [0x30, 0x00, 0xE0, 0x00, 0xF0, 0x25] 0).toNat + 2 ≤ 65536 ∧ 1 < 2 ∧
    (0x3002 : Word).toNat = (imageWord [0x30, 0x00, 0xE0, 0x00, 0xF0, 0x25] 0).toNat + 2 ∧
    ([0x30, 0x00] : List Byte).length = 2 * (0 + 1) ∧ (imageWord [0x30, 0x00] 0).toNat + 0 ≤ 65536 ∧
    ([0xFF, 0xFF, 0x12, 0x34] : List Byte).length = 2 * (1 + 1) ∧
    (imageWord [0xFF, 0xFF, 0x12, 0x34] 0).toNat + 1 ≤ 65536 ∧
    (0xFFFE : Word).toNat < (imageWord [0xFF, 0xFF, 0x12, 0x34] 0).toNat ∧
    ([0x30, 0x00, 0xE0] : List Byte).length % 2 = 1 ∧ ([] : List Byte) = [] := by decide

/-- Just past the end, and just within it. -/
theorem witness_LoadRefusesExactlyThePastEnd :
    ([0xFF, 0xFF, 0x12, 0x34, 0x56, 0x78] : List Byte).length = 2 * (2 + 1) ∧
    65536 < (imageWord [0xFF, 0xFF, 0x12, 0x34, 0x56, 0x78] 0).toNat + 2 ∧
    ([0xFF, 0xFF, 0x12, 0x34] : List Byte).length = 2 * (1 + 1) ∧
    ¬ 65536 < (imageWord [0xFF, 0xFF, 0x12, 0x34] 0).toNat + 1 := by decide

/-- An address before the image and one just behind it. -/
theorem witness_LaunchStateFollowsResetAndLoad :
    (∃ s, State.launch .zero [0x30, 0x00, 0xF0, 0x25] = .ok s) ∧
    (0x2FFF : Word).toNat < (imageWord [0x30, 0x00, 0xF0, 0x25] 0).toNat ∧
    (imageWord [0x30, 0x00, 0xF0, 0x25] 0).toNat +
      (([0x30, 0x00, 0xF0, 0x25] : List Byte).length / 2 - 1) ≤ (0x3001 : Word).toNat :=
  ⟨⟨_, rfl⟩, by decide, by decide⟩

/-! Invariants and refinement. -/

/-- A finished state, and the unfinished state of a waiting IN with its prompt written. -/
theorem witness_EveryStepKeepsTheInvariant :
    ((placed 0x37FF).Inv ∧ step (placed 0x37FF) = .next (next (placed 0x37FF))) ∧
    (let s : State := { placed 0xF023 with unfinished := true, prompted := true }
     s.Inv ∧ step s = .next (next s)) :=
  ⟨⟨by decide, step_next (by decide)⟩, by decide, step_next (by decide)⟩

theorem witness_ResetMeetsTheInvariant : OpenReset.zero.mem.wf = true := by decide

theorem witness_HostMovesKeepTheInvariant :
    State.reset.Inv ∧ State.reset.Between ∧ ∃ t, State.reset.load [0x30, 0x00, 0xF0, 0x25] = .ok t :=
  ⟨by decide, by decide, _, rfl⟩

/-- A store, with a byte outside its word and the two inside; an IN with its key, its prompt unwritten or written. -/
theorem witness_AccessCountsBoundTheChanges :
    (step (placed 0x37FF) = .next (next (placed 0x37FF)) ∧ (next (placed 0x37FF)).unfinished = false ∧
      Reg.r3 ∉ regsWritten (decode ((placed 0x37FF).memRead (placed 0x37FF).pc)) ∧
      storeAddress (decode ((placed 0x37FF).memRead (placed 0x37FF).pc)) (placed 0x37FF).fetch = some 0x3000 ∧
      0x5FFF ≠ Memory.position 0x3000 ∧ 0x5FFF ≠ Memory.position 0x3000 + 1 ∧
      0x6002 ≠ Memory.position 0x3000 ∧ 0x6002 ≠ Memory.position 0x3000 + 1) ∧
    (let s := (placed 0xF023).deliverKey 0x0079
     step s = .next (next s) ∧ (next s).unfinished = false ∧ Reg.r1 ∉ regsWritten (decode (s.memRead s.pc)) ∧
       storeAddress (decode (s.memRead s.pc)) s.fetch = none) ∧
    (let s : State := { (placed 0xF023).deliverKey 0x0079 with unfinished := true, prompted := true }
     step s = .next (next s) ∧ (next s).unfinished = false ∧
       decode (s.memRead s.pc) = .inChar ∧ s.prompted = true) :=
  ⟨⟨step_next (by decide), by decide, by decide, by decide, by decide, by decide, by decide, by decide⟩,
    ⟨step_next (by decide), by decide, by decide, by decide⟩, step_next (by decide), by decide, by decide, rfl⟩

end Sys2Proof.Tests
end

section
/-! PROOFS. The family of 10_state.md: what each part of the state is written by and read by. Three descriptions of
`exec` carry it: the result of the seven instructions of R14, what becomes of the parts of the state that hardly any
instruction looks at (IR, CC, `halted` and the host-owned bits), and what becomes of one register. -/

namespace Sys2Proof.Machine

/-! ## The general TRAP row and the rows its vector selects (R59, R120) -/

theorem resolveTrap_trapRow (v : BitVec 8) : resolveTrap (trapRow v) = trapRow v :=
  resolveTrap_of_wellFormed (wellFormed_trapRow v)

/-- A decoded instruction has no vector left to resolve (R61). -/
@[simp] theorem resolveTrap_decode (w : Word) : resolveTrap (decode w) = decode w := by
  unfold decode
  cases decodeOpcode w with
  | trap v => exact resolveTrap_trapRow v
  | _ => rfl

theorem trapRow_ne_trap (v u : BitVec 8) : trapRow v ≠ .trap u := fun h =>
  Bool.false_ne_true ((congrArg WellFormed h).symm.trans (wellFormed_trapRow v))

/-- To prove something of every instruction, prove it of every row with a resolved vector, and carry it from the row of
each vector to the general TRAP row. -/
theorem Instr.byRow {P : Instr → Prop} (row : ∀ i, (∀ v, i ≠ .trap v) → P i)
    (trap : ∀ v, P (trapRow v) → P (.trap v)) (i : Instr) : P i := by
  cases i with
  | trap v => exact trap v (row _ (trapRow_ne_trap v))
  | _ => exact row _ nofun

theorem exec_trap (v : BitVec 8) (s : State) : exec (.trap v) s = exec (trapRow v) s :=
  execTrap_eq_row v s

theorem ccDestination_trapRow (v : BitVec 8) : ccDestination (trapRow v) = none := by
  unfold trapRow; split <;> rfl

theorem pcAfter_trapRow (v : BitVec 8) (s : State) : pcAfter (trapRow v) s = s.pc + 1 := by
  unfold trapRow; split <;> rfl

theorem regsWritten_trapRow (v : BitVec 8) : regsWritten (trapRow v) = regsWritten (.trap v) :=
  congrArg writesRow (resolveTrap_trapRow v)

theorem regsRead_trapRow (v : BitVec 8) : regsRead (trapRow v) = regsRead (.trap v) :=
  congrArg readsRow (resolveTrap_trapRow v)

/-! ## BR (R110) -/

theorem execBr_of_match {n z p : Bool} {off9 : BitVec 9} {s : State} (h : condMatches n z p s.cc = true) :
    execBr n z p off9 s = .next { s with pc := s.eaPc off9 } := by
  rw [execBr, if_pos h]

theorem execBr_of_no_match {n z p : Bool} {off9 : BitVec 9} {s : State} (h : condMatches n z p s.cc = false) :
    execBr n z p off9 s = .next s := by
  rw [execBr, if_neg (by simp [h])]

/-- Everything BR can do. -/
theorem execBr_cases {n z p : Bool} {off9 : BitVec 9} {s t : State} (h : execBr n z p off9 s = .next t) :
    (condMatches n z p s.cc = true ∧ t = { s with pc := s.eaPc off9 }) ∨
    (condMatches n z p s.cc = false ∧ t = s) := by
  cases hm : condMatches n z p s.cc
  · rw [execBr_of_no_match hm] at h
    exact .inr ⟨rfl, by cases h; rfl⟩
  · rw [execBr_of_match hm] at h
    exact .inl ⟨rfl, by cases h; rfl⟩

/-! ## The prompt of IN (R124) -/

theorem State.promptOnce_of_prompted {s : State} (h : s.prompted = true) : s.promptOnce = s :=
  if_pos h

theorem State.promptOnce_of_not_prompted {s : State} (h : s.prompted = false) :
    s.promptOnce = { s.charsOut Config.inPrompt with prompted := true } :=
  if_neg (by simp [h])

/-! ## The seven instructions that set CC (R14, R15) -/

/-- The value that each of the seven instructions of R14 writes to its destination; the others have none. -/
def resultOf (i : Instr) (s : State) : Word :=
  match i with
  | .addReg _ sr1 sr2 => s.reg sr1 + s.reg sr2
  | .addImm _ sr1 imm5 => s.reg sr1 + sext imm5
  | .andReg _ sr1 sr2 => s.reg sr1 &&& s.reg sr2
  | .andImm _ sr1 imm5 => s.reg sr1 &&& sext imm5
  | .not _ sr1 => ~~~ s.reg sr1
  | .lea _ off9 => s.eaPc off9
  | .ld _ off9 => s.memRead (s.eaPc off9)
  | .ldi _ off9 => s.memRead (s.eaInd off9)
  | .ldr _ base off6 => s.memRead (s.eaBase base off6)
  | _ => 0

/-- Each of the seven writes its result, with CC from it, and nothing else. -/
theorem exec_of_ccDestination {i : Instr} {dr : Reg} (hd : ccDestination i = some dr) (s : State) :
    exec i s = .next (s.writeResult dr (resultOf i s)) := by
  cases i <;> cases hd <;> rfl

/-- R14: CC comes from the value that the destination then holds. -/
theorem cc_of_ccDestination {i : Instr} {dr : Reg} {s t : State} (hd : ccDestination i = some dr)
    (h : exec i s = .next t) : t.cc = ccOf (t.reg dr) := by
  rw [exec_of_ccDestination hd] at h
  cases h
  rw [State.writeResult_cc, State.reg_writeResult_same]

theorem ccOf_eq_z_iff (v : Word) : ccOf v = .z ↔ v = 0 := by
  unfold ccOf
  split
  · simpa
  · split <;> simpa

/-- N is the sign bit: zero, whose sign bit is clear, is told apart first. -/
theorem ccOf_eq_n_iff (v : Word) : ccOf v = .n ↔ 0x8000 ≤ v.toNat := by
  have hsign : v.getLsbD 15 = decide (0x8000 ≤ v.toNat) := BitVec.msb_eq_decide v
  unfold ccOf
  split
  next hz => simp [hz]
  next => rw [hsign]; by_cases hv : 0x8000 ≤ v.toNat <;> simp [hv]

theorem toInt_neg_iff_le_toNat (v : Word) : v.toInt < 0 ↔ 0x8000 ≤ v.toNat := by
  have := v.isLt
  rw [BitVec.toInt_eq_toNat_cond]
  split <;> omega

/-- P is what is neither zero nor negative. -/
theorem ccOf_eq_p_iff (v : Word) : ccOf v = .p ↔ 0 < v.toInt := by
  have hz : ccOf v = .z ↔ v.toInt = 0 := (ccOf_eq_z_iff v).trans BitVec.toInt_inj.symm
  have hn := (ccOf_eq_n_iff v).trans (toInt_neg_iff_le_toNat v).symm
  cases hc : ccOf v <;> simp only [hc, reduceCtorEq, true_iff, false_iff] at hz hn ⊢ <;> omega

/-- Settles O6: the three cases of R15 on the value, and the result that each of the seven instructions writes. -/
theorem resultSetsConditionCode : Obligations.ResultSetsConditionCode :=
  ⟨fun v => ⟨ccOf_eq_z_iff v, (ccOf_eq_n_iff v).trans (toInt_neg_iff_le_toNat v).symm, ccOf_eq_p_iff v,
    ccOf_eq_n_iff v⟩, fun _ _ _ _ => cc_of_ccDestination⟩

/-! ## The parts of the state that hardly any instruction looks at -/

/-- IR, CC, `halted` and the host-owned bits (R13, R14, R16, R17, R19). -/
structure Bystanders where
  ir : Word
  cc : CC
  halted : Bool
  paused : Bool
  breakpoints : List Nat
  labels : List (Nat × String)

/-- These parts of a state. -/
def State.bystanders (s : State) : Bystanders := ⟨s.ir, s.cc, s.halted, s.paused, s.breakpoints, s.labels⟩

/-- A state with other values of these parts. -/
def State.overlay (s : State) (o : Bystanders) : State :=
  { s with ir := o.ir, cc := o.cc, halted := o.halted, paused := o.paused, breakpoints := o.breakpoints,
           labels := o.labels }

@[simp] theorem State.overlay_bystanders (s : State) : s.overlay s.bystanders = s := rfl

/-- CC after an instruction that leaves `t`, from CC before it: set by the seven alone. -/
def ccAfter (i : Instr) (t : State) (c : CC) : CC :=
  match ccDestination i with
  | some _ => t.cc
  | none => c

/-- `halted` after an instruction, from `halted` before it: set by HALT alone. -/
def haltedAfter (i : Instr) (b : Bool) : Bool :=
  match resolveTrap i with
  | .halt => true
  | _ => b

/-- What an instruction that leaves `t` makes of these parts. -/
def Bystanders.after (o : Bystanders) (i : Instr) (t : State) : Bystanders :=
  { o with cc := ccAfter i t o.cc, halted := haltedAfter i o.halted }

theorem ccAfter_of_some {i : Instr} {dr : Reg} (hd : ccDestination i = some dr) (t : State) (c : CC) :
    ccAfter i t c = t.cc := by
  simp [ccAfter, hd]

theorem ccAfter_of_none {i : Instr} (hd : ccDestination i = none) (t : State) (c : CC) : ccAfter i t c = c := by
  simp [ccAfter, hd]

theorem haltedAfter_false_iff (i : Instr) : haltedAfter i false = true ↔ resolveTrap i = .halt := by
  unfold haltedAfter
  split <;> simp_all

theorem haltedAfter_true (i : Instr) : haltedAfter i true = true := by
  unfold haltedAfter
  split <;> rfl

theorem Bystanders.after_trapRow (o : Bystanders) (v : BitVec 8) (t : State) :
    o.after (trapRow v) t = o.after (.trap v) t := by
  rw [Bystanders.after, ccAfter_of_none (ccDestination_trapRow v), haltedAfter, resolveTrap_trapRow]
  rfl

theorem State.promptOnce_overlay (s : State) (o : Bystanders) :
    (s.overlay o).promptOnce = s.promptOnce.overlay o := by
  cases hp : s.prompted
  · rw [State.promptOnce_of_not_prompted hp]; exact State.promptOnce_of_not_prompted (s := s.overlay o) hp
  · rw [State.promptOnce_of_prompted hp]; exact State.promptOnce_of_prompted (s := s.overlay o) hp

/-- Whatever values these parts have, an instruction does the same to the rest of the state, and to them only what
`Bystanders.after` says; BR alone looks at one of them, CC. -/
theorem exec_overlay {i : Instr} {s t : State} {o : Bystanders} (ho : i.opcode = .br → o.cc = s.cc)
    (h : exec i s = .next t) : exec i (s.overlay o) = .next (t.overlay (o.after i t)) := by
  induction i using Instr.byRow with
  | trap v ih =>
    rw [exec_trap] at h ⊢
    rw [← Bystanders.after_trapRow]
    exact ih (fun hb => absurd ((opcode_trapRow v).symm.trans hb) nofun) h
  | row i hi =>
    cases i with
    | trap v => exact absurd rfl (hi v)
    | br n z p off9 =>
      have hcc : (s.overlay o).cc = s.cc := ho rfl
      rcases execBr_cases h with ⟨hm, rfl⟩ | ⟨hm, rfl⟩
      · exact execBr_of_match (by rwa [hcc])
      · exact execBr_of_no_match (by rwa [hcc])
    | getc =>
      rcases execGetc_cases h with ⟨hk, rfl⟩ | ⟨k, ks, hk, rfl⟩
      · exact execGetc_of_no_key hk
      · exact execGetc_of_key hk
    | puts =>
      rcases execPuts_cases h with ⟨hc, rfl⟩ | ⟨hc, rfl⟩
      · exact execPuts_of_ended hc
      · exact execPuts_of_endless hc
    | inChar =>
      rcases execIn_cases h with ⟨hk, rfl⟩ | ⟨k, ks, hk, rfl⟩
      · rw [exec, execIn_of_no_key (s := s.overlay o) hk, State.promptOnce_overlay]; rfl
      · rw [exec, execIn_of_key (s := s.overlay o) hk, State.promptOnce_overlay]; rfl
    | _ => cases h; rfl

/-- What becomes of these parts: they stay, but for CC of the seven and `halted` of HALT. -/
theorem exec_bystanders {i : Instr} {s t : State} (h : exec i s = .next t) :
    t.bystanders = s.bystanders.after i t := by
  have ht := exec_overlay (o := s.bystanders) (fun _ => rfl) h
  rw [State.overlay_bystanders, h] at ht
  injection ht with ht
  exact congrArg State.bystanders ht

/-- A change `f` of these parts before an instruction comes to a change `g` of them after it. -/
theorem exec_change {i : Instr} {s t : State} {f g : Bystanders → Bystanders}
    (hfg : ∀ o, (f o).after i t = g (o.after i t)) (ho : i.opcode = .br → (f s.bystanders).cc = s.cc)
    (h : exec i s = .next t) : exec i (s.overlay (f s.bystanders)) = .next (t.overlay (g t.bystanders)) := by
  rw [exec_overlay ho h, hfg, ← exec_bystanders h]

/-! ## A step -/

/-- A finished step is its decoded instruction on the fetched state. -/
theorem exec_of_finished_step {s t : State} (h : step s = .next t) (hf : t.unfinished = false) :
    exec (decode (s.memRead s.pc)) s.fetch = .next t := by
  obtain ⟨-, u, hu, rfl⟩ := step_cases h
  rw [State.settle_unfinished] at hf
  rwa [State.settle_finished s hf]

/-- Every instruction answers a next state from every state (R58). -/
theorem exec_next (i : Instr) (s : State) : ∃ t, exec i s = .next t := by
  induction i using Instr.byRow with
  | trap v ih => exact exec_trap v s ▸ ih
  | row i hi =>
    cases i with
    | trap v => exact absurd rfl (hi v)
    | getc =>
      rcases State.keyIn_cases s with ⟨hk, -⟩ | ⟨k, ks, hk, -⟩
      · exact ⟨_, execGetc_of_no_key hk⟩
      · exact ⟨_, execGetc_of_key hk⟩
    | inChar =>
      rcases State.keyIn_cases s with ⟨hk, -⟩ | ⟨k, ks, hk, -⟩
      · exact ⟨_, execIn_of_no_key hk⟩
      · exact ⟨_, execIn_of_key hk⟩
    | puts =>
      cases hc : (s.mem.stringAt (s.reg .r0)).2
      · exact ⟨_, execPuts_of_endless hc⟩
      · exact ⟨_, execPuts_of_ended hc⟩
    | _ => exact ⟨_, rfl⟩

/-- A halted machine has no step (R85, D13). -/
theorem step_of_halted {s : State} (h : s.halted = true) : step s = .fault .halted := by
  rw [step, if_pos h]

/-- A machine that is not halted has one (R89). -/
theorem step_next_of_not_halted {s : State} (h : s.halted = false) : ∃ t, step s = .next t := by
  obtain ⟨u, hu⟩ := exec_next (decode (s.memRead s.pc)) s.fetch
  exact ⟨_, step_of_exec h hu⟩

theorem halted_of_step_fault {s : State} {f : Fault} (h : step s = .fault f) : s.halted = true := by
  cases hh : s.halted
  · obtain ⟨t, ht⟩ := step_next_of_not_halted hh
    rw [h] at ht
    cases ht
  · rfl

/-! ## The PC (R12) -/

theorem pcAfter_of_not_transfer {i : Instr} (s : State) (hbr : ∀ n z p off9, i ≠ .br n z p off9)
    (hjmp : ∀ base, i ≠ .jmp base) (hjsr : ∀ off11, i ≠ .jsr off11) (hjsrr : ∀ base, i ≠ .jsrr base) :
    pcAfter i s = s.pc + 1 := by
  cases i with
  | br n z p off9 => exact absurd rfl (hbr n z p off9)
  | jmp base => exact absurd rfl (hjmp base)
  | jsr off11 => exact absurd rfl (hjsr off11)
  | jsrr base => exact absurd rfl (hjsrr base)
  | _ => rfl

/-- An instruction on the fetched state leaves the PC of R12's table, also where its step is not finished. -/
theorem exec_fetch_pc {i : Instr} {s t : State} (h : exec i s.fetch = .next t) : t.pc = pcAfter i s := by
  induction i using Instr.byRow with
  | trap v ih =>
    rw [exec_trap] at h
    exact (ih h).trans (pcAfter_trapRow v s)
  | row i hi =>
    cases i with
    | trap v => exact absurd rfl (hi v)
    | br n z p off9 =>
      rcases execBr_cases h with ⟨hm, rfl⟩ | ⟨hm, rfl⟩
      · exact (if_pos hm).symm
      · exact (if_neg (Bool.not_eq_true _ ▸ hm)).symm
    | jsrr base =>
      cases h
      change s.fetch.link.reg base = if base = .r7 then s.pc + 1 else s.reg base
      split
      next hb => rw [hb]; rfl
      next hb => exact State.reg_setReg_other s.fetch _ hb
    | getc => rcases execGetc_cases h with ⟨-, rfl⟩ | ⟨k, ks, -, rfl⟩ <;> rfl
    | inChar => rcases execIn_cases h with ⟨-, rfl⟩ | ⟨k, ks, -, rfl⟩ <;> exact State.promptOnce_pc s.fetch
    | puts => rcases execPuts_cases h with ⟨-, rfl⟩ | ⟨-, rfl⟩ <;> rfl
    | _ => cases h; rfl

/-- The origin of an image is the first word of its stream (R44). -/
theorem origin_eq_imageWord {bytes : List Byte} {origin : Word} {ws : List Word}
    (h : wordsOfBytes bytes = some (origin :: ws)) : origin = imageWord bytes 0 := by
  match bytes with
  | [] => cases h
  | [_] => cases h
  | hi :: lo :: rest =>
    have ho : origin = wordOfBytes hi lo := by
      rw [wordsOfBytes] at h
      split at h
      · cases h
      · cases h; rfl
    calc origin = wordOfBytes hi lo := ho
      _ = BitVec.ofNat 16 (wordOfBytes hi lo).toNat := by simp
      _ = imageWord (hi :: lo :: rest) 0 := by rw [toNat_wordOfBytes]; rfl

/-- Settles O34, from the PC that every instruction leaves. -/
theorem pcAfterAStepFollowsTheTable : Obligations.PcAfterAStepFollowsTheTable := by
  refine ⟨fun s t h hf => exec_fetch_pc (exec_of_finished_step h hf), fun i s hbr hjmp hjsr hjsrr => ?_,
    fun s t bytes h => ?_⟩
  · rw [pcAfter_of_not_transfer s hbr hjmp hjsr hjsrr, BitVec.toNat_add]
    rfl
  · obtain ⟨origin, ws, hw, -, rfl⟩ := State.load_cases h
    exact origin_eq_imageWord hw

/-! ## IR (R13) -/

theorem load_bystanders {s t : State} {bytes : List Byte} (h : s.load bytes = .ok t) : t.bystanders = s.bystanders := by
  obtain ⟨origin, ws, -, -, rfl⟩ := State.load_cases h
  rfl

theorem exec_ir {i : Instr} {s t : State} (h : exec i s = .next t) : t.ir = s.ir :=
  congrArg Bystanders.ir (exec_bystanders h)

/-- IR is no operand of any instruction. -/
theorem exec_withIr {i : Instr} {s t : State} (w : Word) (h : exec i s = .next t) :
    exec i { s with ir := w } = .next { t with ir := w } :=
  exec_change (f := fun o => { o with ir := w }) (g := fun o => { o with ir := w }) (fun _ => rfl) (fun _ => rfl) h

/-- Settles O35: another value of IR goes through every instruction unchanged. -/
theorem irHoldsTheExecutedWord : Obligations.IrHoldsTheExecutedWord :=
  ⟨fun _ _ h hf => exec_ir (exec_of_finished_step h hf), fun _ _ _ h => congrArg Bystanders.ir (load_bystanders h),
    fun _ _ _ w h => ⟨exec_ir h, exec_withIr w h⟩⟩

/-! ## CC (R14) -/

theorem exec_cc_of_none {i : Instr} {s t : State} (hd : ccDestination i = none) (h : exec i s = .next t) :
    t.cc = s.cc :=
  (congrArg Bystanders.cc (exec_bystanders h)).trans (ccAfter_of_none hd t s.cc)

theorem opcode_ne_br {i : Instr} (hi : ∀ n z p off9, i ≠ .br n z p off9) : i.opcode ≠ .br := by
  cases i with
  | br n z p off9 => exact absurd rfl (hi n z p off9)
  | _ => nofun

/-- An instruction that keeps CC, BR aside, carries any value of it through. -/
theorem exec_withCc_of_none {i : Instr} {s t : State} (c : CC) (hi : i.opcode ≠ .br) (hd : ccDestination i = none)
    (h : exec i s = .next t) : exec i { s with cc := c } = .next { t with cc := c } :=
  exec_change (f := fun o => { o with cc := c }) (g := fun o => { o with cc := c })
    (fun o => by simp [Bystanders.after, ccAfter_of_none hd]) (fun hb => absurd hb hi) h

/-- An instruction that sets CC loses its old value. -/
theorem exec_withCc_of_some {i : Instr} {dr : Reg} {s t : State} (c : CC) (hi : i.opcode ≠ .br)
    (hd : ccDestination i = some dr) (h : exec i s = .next t) : exec i { s with cc := c } = .next t :=
  exec_change (f := fun o => { o with cc := c }) (g := id)
    (fun o => by simp [Bystanders.after, ccAfter_of_some hd]) (fun hb => absurd hb hi) h

/-- BRn to the word after the next one goes elsewhere under N than under Z. -/
theorem br_depends_on_cc : ∃ (i : Instr) (s t t' : State) (c : CC),
    exec i s = .next t ∧ exec i { s with cc := c } = .next t' ∧ t'.pc ≠ t.pc :=
  ⟨.br true false false 1, State.reset, _, _, .n, rfl, rfl, by decide⟩

/-- Settles O36: the result of the seven, the CC that the others carry through, and a BR that depends on it. -/
theorem onlySevenInstructionsWriteCc : Obligations.OnlySevenInstructionsWriteCc :=
  ⟨fun _ _ _ h => ⟨fun _ hd => cc_of_ccDestination hd h, fun hd => exec_cc_of_none hd h⟩,
    fun _ _ _ c hi h => ⟨fun hd => exec_withCc_of_none c (opcode_ne_br hi) hd h, fun hd =>
      have ⟨_, hdr⟩ := Option.ne_none_iff_exists'.mp hd
      exec_withCc_of_some c (opcode_ne_br hi) hdr h⟩,
    br_depends_on_cc⟩

/-! ## `halted` (R16) -/

theorem exec_halted {i : Instr} {s t : State} (h : exec i s = .next t) : t.halted = haltedAfter i s.halted :=
  congrArg Bystanders.halted (exec_bystanders h)

/-- A step starts with `halted` clear, and HALT alone ends with it set. -/
theorem step_halted {s t : State} (h : step s = .next t) :
    s.halted = false ∧ (t.halted = true ↔ decode (s.memRead s.pc) = .halt) := by
  obtain ⟨hs, u, hu, rfl⟩ := step_cases h
  refine ⟨hs, ?_⟩
  rw [State.settle_halted, exec_halted hu, State.fetch_halted, hs, haltedAfter_false_iff, resolveTrap_decode]

/-- `halted` is no operand of any instruction. -/
theorem exec_withHalted {i : Instr} {s t : State} (b : Bool) (h : exec i s = .next t) :
    exec i { s with halted := b } = .next { t with halted := haltedAfter i b } :=
  exec_change (f := fun o => { o with halted := b }) (g := fun o => { o with halted := haltedAfter i b })
    (fun _ => rfl) (fun _ => rfl) h

/-- Settles O38, from what becomes of `halted`. -/
theorem haltedIsSetByHaltAlone : Obligations.HaltedIsSetByHaltAlone := by
  refine ⟨fun s t h => step_halted h, fun i s t b h => ⟨fun hs => ?_, _, exec_withHalted b h⟩, fun s t hs h => ?_,
    fun s t bytes h => congrArg Bystanders.halted (load_bystanders h), fun o => rfl⟩
  · rw [exec_halted h, hs, haltedAfter_true]
  · rw [step_of_halted hs] at h
    cases h

/-! ## The host-owned bits (R17, R19) -/

/-- Settling looks at no host-owned bit. -/
theorem State.settle_withHostBits (s u : State) (b : Bool) (bps : List Nat) (lbs : List (Nat × String)) :
    State.settle { s with paused := b, breakpoints := bps, labels := lbs }
        { u with paused := b, breakpoints := bps, labels := lbs } =
      { s.settle u with paused := b, breakpoints := bps, labels := lbs } := by
  cases hu : u.unfinished <;> simp [State.settle, hu]

theorem step_hostBits {s t : State} (h : step s = .next t) :
    t.paused = s.paused ∧ t.breakpoints = s.breakpoints ∧ t.labels = s.labels := by
  obtain ⟨-, u, hu, rfl⟩ := step_cases h
  have hb := exec_bystanders hu
  rw [State.settle_paused, State.settle_breakpoints, State.settle_labels]
  exact ⟨congrArg Bystanders.paused hb, congrArg Bystanders.breakpoints hb, congrArg Bystanders.labels hb⟩

theorem step_withHostBits {s t : State} (b : Bool) (bps : List Nat) (lbs : List (Nat × String))
    (h : step s = .next t) :
    step { s with paused := b, breakpoints := bps, labels := lbs } =
      .next { t with paused := b, breakpoints := bps, labels := lbs } := by
  obtain ⟨hs, u, hu, rfl⟩ := step_cases h
  rw [← State.settle_withHostBits]
  exact step_of_exec hs (exec_change (f := fun o => { o with paused := b, breakpoints := bps, labels := lbs })
    (g := fun o => { o with paused := b, breakpoints := bps, labels := lbs }) (fun _ => rfl) (fun _ => rfl) hu)

/-- Settles O40: other values of the host-owned bits go through a step unchanged. -/
theorem hostBitsChangeNoStep : Obligations.HostBitsChangeNoStep :=
  fun _ _ b bps lbs => ⟨step_hostBits, step_withHostBits b bps lbs, fun h =>
    have hs := halted_of_step_fault h
    step_of_halted hs⟩

/-! ## The registers (R11) -/

/-- An instruction changes no register outside its written ones. -/
theorem exec_reg_of_not_written {i : Instr} {s t : State} {r : Reg} (h : exec i s = .next t) (hr : r ∉ regsWritten i) :
    t.reg r = s.reg r := by
  induction i using Instr.byRow with
  | trap v ih =>
    rw [exec_trap] at h
    exact ih h (regsWritten_trapRow v ▸ hr)
  | row i hi =>
    cases i with
    | trap v => exact absurd rfl (hi v)
    | st | sti | str | jmp | out | putsp | halt | trapOther | rti | res => cases h; rfl
    | br n z p off9 => rcases execBr_cases h with ⟨-, rfl⟩ | ⟨-, rfl⟩ <;> rfl
    | jsr | jsrr => cases h; exact State.reg_setReg_other s s.pc (List.ne_of_not_mem_cons hr)
    | getc =>
      rcases execGetc_cases h with ⟨-, rfl⟩ | ⟨k, ks, -, rfl⟩
      · rfl
      · exact State.reg_setReg_other _ k (List.ne_of_not_mem_cons hr)
    | inChar =>
      rcases execIn_cases h with ⟨-, rfl⟩ | ⟨k, ks, -, rfl⟩
      · exact State.reg_congr (State.promptOnce_regs s) r
      · exact (State.reg_setReg_other _ k (List.ne_of_not_mem_cons hr)).trans
          (State.reg_congr (State.promptOnce_regs s) r)
    | puts => rcases execPuts_cases h with ⟨-, rfl⟩ | ⟨-, rfl⟩ <;> rfl
    | _ => cases h; exact State.reg_writeResult_other s _ (List.ne_of_not_mem_cons hr)

/-- Two writes to the register file in the other order: the value written to the first register is still there, unless
the second write replaced it. -/
theorem RegFile.set_swap (f : RegFile) (r d : Reg) (v x : Word) :
    (f.set r v).set d x = (f.set d x).set r (if r = d then x else v) := by
  apply RegFile.ext_get
  intro q
  by_cases hd : q = d <;> by_cases hr : q = r
  · simp [← hd, ← hr]
  · subst hd; simp [RegFile.get_set_other _ _ hr]
  · subst hr; simp [RegFile.get_set_other _ _ hd, hd]
  · simp [RegFile.get_set_other _ _ hd, RegFile.get_set_other _ _ hr]

theorem State.setReg_swap (s : State) (r d : Reg) (v x : Word) :
    (s.setReg r v).setReg d x = (s.setReg d x).setReg r (if r = d then x else v) :=
  congrArg (fun f => { s with regs := f }) (RegFile.set_swap s.regs r d v x)

theorem State.writeResult_setReg (s : State) (r d : Reg) (v x : Word) :
    (s.setReg r v).writeResult d x = (s.writeResult d x).setReg r (if r = d then x else v) :=
  congrArg (fun t : State => { t with cc := ccOf x }) (State.setReg_swap s r d v x)

theorem State.link_setReg (s : State) (r : Reg) (v : Word) :
    (s.setReg r v).link = s.link.setReg r (if r = .r7 then s.pc else v) :=
  State.setReg_swap s r .r7 v s.pc

theorem State.promptOnce_setReg (s : State) (r : Reg) (v : Word) :
    (s.setReg r v).promptOnce = s.promptOnce.setReg r v := by
  cases hp : s.prompted
  · rw [State.promptOnce_of_not_prompted hp]; exact State.promptOnce_of_not_prompted (s := s.setReg r v) hp
  · rw [State.promptOnce_of_prompted hp]; exact State.promptOnce_of_prompted (s := s.setReg r v) hp

/-- What an instruction reads is not the register that it does not read. -/
theorem reg_setReg_of_read {i : Instr} {r q : Reg} (s : State) (v : Word) (hr : r ∉ regsRead i) (hq : q ∈ regsRead i) :
    (s.setReg r v).reg q = s.reg q :=
  State.reg_setReg_other s v (ne_of_mem_of_not_mem hq hr)

/-- The result of the seven looks at no register outside R11's read ones. -/
theorem resultOf_setReg {i : Instr} {r : Reg} (s : State) (v : Word) (hr : r ∉ regsRead i) :
    resultOf i (s.setReg r v) = resultOf i s := by
  have hread := fun q => reg_setReg_of_read (q := q) s v hr
  cases i with
  | addReg _ sr1 sr2 | andReg _ sr1 sr2 =>
    simp only [resultOf, hread sr1 (.head _), hread sr2 (.tail _ (.head _))]
  | addImm _ sr1 | andImm _ sr1 | not _ sr1 => simp only [resultOf, hread sr1 (.head _)]
  | ldr _ base off6 => simp only [resultOf, State.eaBase, hread base (.head _)]; rfl
  | _ => rfl

/-- A register that an instruction does not read keeps any value given to it, unless the instruction writes over it, and
the rest of the state does not notice. -/
theorem exec_setReg_of_not_read {i : Instr} {s t : State} {r : Reg} (v : Word) (hr : r ∉ regsRead i)
    (h : exec i s = .next t) : ∃ w, exec i (s.setReg r v) = .next (t.setReg r w) := by
  induction i using Instr.byRow with
  | trap u ih =>
    rw [exec_trap] at h ⊢
    exact ih (regsRead_trapRow u ▸ hr) h
  | row i hi =>
    have hread := fun q => reg_setReg_of_read (q := q) s v hr
    cases i with
    | trap u => exact absurd rfl (hi u)
    | br n z p off9 =>
      rcases execBr_cases h with ⟨hm, rfl⟩ | ⟨hm, rfl⟩
      · exact ⟨v, execBr_of_match hm⟩
      · exact ⟨v, execBr_of_no_match hm⟩
    | putsp | halt | trapOther | rti | res => cases h; exact ⟨v, rfl⟩
    | st sr off9 | sti sr off9 => cases h; exact ⟨v, by simp only [exec, execSt, execSti, hread sr (.head _)]; rfl⟩
    | str sr base off6 =>
      cases h
      exact ⟨v, by simp only [exec, execStr, State.eaBase, hread sr (.head _), hread base (.tail _ (.head _))]; rfl⟩
    | jmp base => cases h; exact ⟨v, by simp only [exec, execJmp, hread base (.head _)]; rfl⟩
    | jsr off11 => cases h; exact ⟨_, by simp only [exec, execJsr, State.link_setReg]; rfl⟩
    | jsrr base =>
      cases h
      have hb : base ≠ r := fun hb => hr (hb ▸ .head _)
      exact ⟨_, by simp only [exec, execJsrr, State.link_setReg, State.reg_setReg_other _ _ hb]; rfl⟩
    | getc =>
      rcases execGetc_cases h with ⟨hk, rfl⟩ | ⟨k, ks, hk, rfl⟩
      · exact ⟨v, execGetc_of_no_key hk⟩
      · have hswap := State.setReg_swap { s with keys := ks } r .r0 v k
        exact ⟨_, (execGetc_of_key (s := s.setReg r v) hk).trans (congrArg Host.Outcome.next hswap)⟩
    | inChar =>
      rcases execIn_cases h with ⟨hk, rfl⟩ | ⟨k, ks, hk, rfl⟩
      · exact ⟨v, by rw [exec, execIn_of_no_key (s := s.setReg r v) hk, State.promptOnce_setReg]; rfl⟩
      · have hswap := State.setReg_swap { s.promptOnce with keys := ks } r .r0 v k
        refine ⟨if r = .r0 then k else v, (execIn_of_key (s := s.setReg r v) hk).trans ?_⟩
        rw [State.promptOnce_setReg]
        exact congrArg (fun u : State => Host.Outcome.next { u.charOut k with prompted := false }) hswap
    | out => cases h; exact ⟨v, by simp only [exec, execOut, hread .r0 (.head _)]; rfl⟩
    | puts =>
      have h0 := hread .r0 (.head _)
      rcases execPuts_cases h with ⟨hc, rfl⟩ | ⟨hc, rfl⟩
      · exact ⟨v, (execPuts_of_ended (by rw [h0]; exact hc)).trans (by rw [h0]; rfl)⟩
      · exact ⟨v, (execPuts_of_endless (by rw [h0]; exact hc)).trans (by rw [h0]; rfl)⟩
    | _ => cases h; exact ⟨_, by rw [exec_of_ccDestination rfl, resultOf_setReg s v hr, State.writeResult_setReg]; rfl⟩

/-- Settles O37: the frame of the registers, and another value of a register that is not read. -/
theorem registersReadAndWrittenFollowTheTable : Obligations.RegistersReadAndWrittenFollowTheTable := by
  refine ⟨fun i s t r => exec_reg_of_not_written, fun i s t r v hr h => ?_⟩
  obtain ⟨w, hw⟩ := exec_setReg_of_not_read v hr h
  exact ⟨t.setReg r w, hw, fun q hq => State.reg_setReg_other t w hq, rfl⟩

/-! ## The invariant at reset (R22, R160) -/

/-- Settles O52: at reset no step is unfinished and no prompt written, so only the form of memory is asked for. -/
theorem resetMeetsTheInvariant : Obligations.ResetMeetsTheInvariant :=
  have hreset (o : OpenReset) (h : o.mem.wf = true) : (State.resetOf o).Inv := ⟨h, nofun, nofun⟩
  ⟨hreset .zero rfl, hreset⟩

end Sys2Proof.Machine
end

section
/-! PROOFS. The family of 20_memory.md: what a store does to the memory, to the state and to the next fetch, and what a
load does with a byte stream. A canonical memory after a store is pinned down by the word stored and the bytes around it
(`Memory.write_eq`); an image in place is read at an address by its distance from the origin (`Memory.read_writeWords`).
-/

namespace Sys2Proof.Machine

/-! ## Words in memory (R32, R33) -/

@[simp] theorem Memory.highByte_read (m : Memory) (a : Word) :
    highByte (m.read a) = m.readByte (Memory.position a) :=
  highByte_wordOfBytes _ _

@[simp] theorem Memory.lowByte_read (m : Memory) (a : Word) :
    lowByte (m.read a) = m.readByte (Memory.position a + 1) :=
  lowByte_wordOfBytes _ _

theorem Memory.read_write {m : Memory} (hm : m.wf = true) (a v b : Word) :
    (m.write a v).read b = if b = a then v else m.read b := by
  split
  next h => rw [h, Memory.read_write_same a v hm]
  next h => exact Memory.read_write_other v m h

/-- A store gives the one canonical memory that holds the word stored and has every other byte as before. -/
theorem Memory.write_eq {m m' : Memory} {a v : Word} (hm : m.wf = true) (hm' : m'.wf = true) (hv : m'.read a = v)
    (hother : ∀ q, q ≠ Memory.position a → q ≠ Memory.position a + 1 → m'.readByte q = m.readByte q) :
    m.write a v = m' := by
  have hword : (m.write a v).read a = m'.read a := (Memory.read_write_same a v hm).trans hv.symm
  refine Memory.eq_of_readByte (Memory.wf_write a v hm) hm' fun q => ?_
  by_cases hhigh : q = Memory.position a
  · rw [hhigh, ← Memory.highByte_read, ← Memory.highByte_read, hword]
  by_cases hlow : q = Memory.position a + 1
  · rw [hlow, ← Memory.lowByte_read, ← Memory.lowByte_read, hword]
  · rw [Memory.readByte_write_other v m hhigh hlow, hother q hhigh hlow]

/-- The last of two stores to one address is the one that counts. -/
theorem Memory.write_write {m : Memory} (hm : m.wf = true) (a u v : Word) :
    (m.write a u).write a v = m.write a v :=
  Memory.write_eq (Memory.wf_write a u hm) (Memory.wf_write a v hm) (Memory.read_write_same a v hm)
    fun _ h1 h2 => (Memory.readByte_write_other v m h1 h2).trans (Memory.readByte_write_other u m h1 h2).symm

/-- Storing what is there changes nothing. -/
theorem Memory.write_read {m : Memory} (hm : m.wf = true) (a : Word) : m.write a (m.read a) = m :=
  Memory.write_eq hm hm rfl fun _ _ _ => rfl

/-- Settles O46, from the laws of one memory word. -/
theorem memoryReadsTheLatestWrite : Obligations.MemoryReadsTheLatestWrite :=
  fun _ a v hm => ⟨Memory.wf_write a v hm, Memory.read_write hm a v, fun u => Memory.write_write hm a u v,
    Memory.write_read hm a⟩

/-! ## What an instruction does to memory (R37) -/

/-- A store instruction writes one register at its address and changes nothing else. -/
theorem exec_of_storeAddress {i : Instr} {s : State} {a : Word} (ha : storeAddress i s = some a) :
    ∃ sr, exec i s = .next (s.memWrite a (s.reg sr)) := by
  cases i with
  | st | sti | str => cases ha; exact ⟨_, rfl⟩
  | _ => cases ha

theorem storeAddress_trapRow (v : BitVec 8) (s : State) : storeAddress (trapRow v) s = none := by
  unfold trapRow; split <;> rfl

/-- An instruction that is no store leaves memory alone. -/
theorem exec_mem_of_not_store {i : Instr} {s t : State} (hn : storeAddress i s = none) (h : exec i s = .next t) :
    t.mem = s.mem := by
  induction i using Instr.byRow with
  | trap v ih =>
    rw [exec_trap] at h
    exact ih (storeAddress_trapRow v s) h
  | row i hi =>
    cases i with
    | trap v => exact absurd rfl (hi v)
    | st | sti | str => cases hn
    | br n z p off9 => rcases execBr_cases h with ⟨-, rfl⟩ | ⟨-, rfl⟩ <;> rfl
    | getc => rcases execGetc_cases h with ⟨-, rfl⟩ | ⟨k, ks, -, rfl⟩ <;> rfl
    | inChar => rcases execIn_cases h with ⟨-, rfl⟩ | ⟨k, ks, -, rfl⟩ <;> exact State.promptOnce_mem s
    | puts => rcases execPuts_cases h with ⟨-, rfl⟩ | ⟨-, rfl⟩ <;> rfl
    | _ => cases h; rfl

/-- A byte that an instruction changes lies in the word at its store's address. -/
theorem storeAddress_of_changed_byte {i : Instr} {s t : State} {q : Nat} (h : exec i s = .next t)
    (hq : t.mem.readByte q ≠ s.mem.readByte q) :
    ∃ a, storeAddress i s = some a ∧ (q = Memory.position a ∨ q = Memory.position a + 1) := by
  cases ha : storeAddress i s with
  | none => exact absurd (by rw [exec_mem_of_not_store ha h]) hq
  | some a =>
    obtain ⟨sr, hs⟩ := exec_of_storeAddress ha
    rw [hs] at h
    cases h
    refine ⟨a, rfl, by_contra fun hout => hq ?_⟩
    obtain ⟨h1, h2⟩ := not_or.mp hout
    exact Memory.readByte_write_other _ s.mem h1 h2

/-- Settles O39: a step's memory is the one its decoded instruction leaves. -/
theorem onlyStoresChangeMemory : Obligations.OnlyStoresChangeMemory := by
  intro s t h
  obtain ⟨-, u, hu, rfl⟩ := step_cases h
  rw [State.settle_mem]
  exact ⟨fun q hq => storeAddress_of_changed_byte hu hq, fun hn => exec_mem_of_not_store (s := s.fetch) hn hu⟩

/-! ## A store and the next fetch (R42, R81) -/

/-- What a store makes of a state with canonical memory. -/
theorem State.storeResult_memWrite {s : State} (hm : s.mem.wf = true) (a v : Word) :
    StoreResult a v s (s.memWrite a v) where
  value := Memory.read_write_same a v hm
  others _ h1 h2 := Memory.readByte_write_other v s.mem h1 h2
  regs _ := rfl
  cc := rfl
  pc := rfl
  ports := ⟨rfl, rfl, rfl⟩
  rest := ⟨rfl, rfl, rfl, rfl, rfl, rfl⟩

/-- A step that runs ST is the fetch and the store. -/
theorem step_of_st {s t : State} {sr : Reg} {off9 : BitVec 9} (h : step s = .next t)
    (hd : decode (s.memRead s.pc) = .st sr off9) : t = s.fetch.memWrite (s.fetch.eaPc off9) (s.reg sr) := by
  obtain ⟨-, u, hu, rfl⟩ := step_cases h
  rw [hd] at hu
  cases hu
  exact State.settle_finished s rfl

/-- Offset 0 names the next instruction. -/
theorem State.eaPc_fetch_zero (s : State) : s.fetch.eaPc 0 = s.pc + 1 :=
  BitVec.add_zero (s.pc + 1)

/-- Offset -1 names the instruction itself. -/
theorem State.eaPc_fetch_minus_one (s : State) : s.fetch.eaPc 0x1FF = s.pc := by
  have hminus : sext (0x1FF : BitVec 9) = -1 := by decide
  rw [State.eaPc, hminus, State.fetch_pc, BitVec.add_neg_eq_sub, BitVec.add_sub_cancel]

/-- Settles O47: both stores are the fetch and one memory write, at the new PC or at the old one. -/
theorem theNextFetchSeesTheStore : Obligations.TheNextFetchSeesTheStore := by
  refine fun s t sr hm h => ⟨fun hd => ?_, fun hd => ?_⟩
  · have hword : t.memRead t.pc = s.reg sr := by
      rw [step_of_st h hd, State.eaPc_fetch_zero]
      exact Memory.read_write_same (s.pc + 1) (s.reg sr) hm
    exact ⟨hword, fun u hu hf => (exec_ir (exec_of_finished_step hu hf)).trans hword⟩
  · have ht := step_of_st h hd
    rw [State.eaPc_fetch_minus_one] at ht
    subst ht
    exact ⟨rfl, rfl, State.storeResult_memWrite (s := s.fetch) hm s.pc (s.reg sr)⟩

/-! ## The words of a byte stream (R35, R44) -/

theorem imageWord_zero (hi lo : Byte) (rest : List Byte) : imageWord (hi :: lo :: rest) 0 = wordOfBytes hi lo :=
  (origin_eq_imageWord (bytes := [hi, lo]) rfl).symm

theorem imageWord_succ (hi lo : Byte) (rest : List Byte) (k : Nat) :
    imageWord (hi :: lo :: rest) (k + 1) = imageWord rest k := rfl

/-- A stream of whole words is read word by word. -/
theorem wordsOfBytes_of_even {bytes : List Byte} {n : Nat} (h : bytes.length = 2 * n) :
    wordsOfBytes bytes = some ((List.range n).map (imageWord bytes)) := by
  induction n generalizing bytes with
  | zero => rw [List.length_eq_zero_iff.mp h]; rfl
  | succ n ih =>
    match bytes with
    | [] | [_] => simp only [List.length_nil, List.length_singleton] at h; omega
    | hi :: lo :: rest =>
      have hrest := ih (bytes := rest) (by simp only [List.length_cons] at h; omega)
      rw [wordsOfBytes, hrest, List.range_succ_eq_map, List.map_cons, List.map_map, imageWord_zero]
      rfl

/-- A stream that ends inside a word has no words. -/
theorem wordsOfBytes_of_odd {bytes : List Byte} (h : bytes.length % 2 = 1) : wordsOfBytes bytes = none := by
  induction bytes using wordsOfBytes.induct with
  | case1 => cases h
  | case2 b => rfl
  | case3 hi lo rest hnone ih => rw [wordsOfBytes, hnone]
  | case4 hi lo rest ws hsome ih =>
    have hrest := ih (by simp only [List.length_cons] at h; omega)
    rw [hsome] at hrest
    cases hrest

/-! ## An image in place (R44) -/

/-- The `n` words of an image behind its origin. -/
def imageWords (bytes : List Byte) (n : Nat) : List Word :=
  (List.range n).map (fun k => imageWord bytes (k + 1))

@[simp] theorem length_imageWords (bytes : List Byte) (n : Nat) : (imageWords bytes n).length = n := by
  simp [imageWords]

theorem getD_imageWords {bytes : List Byte} {n k : Nat} (h : k < n) (v : Word) :
    (imageWords bytes n).getD k v = imageWord bytes (k + 1) := by
  simp [imageWords, h]

/-- What `load` does with a stream of whole words, an origin among them. -/
theorem State.load_of_even (s : State) {bytes : List Byte} {n : Nat} (h : bytes.length = 2 * (n + 1)) :
    s.load bytes = if (imageWord bytes 0).toNat + n ≤ 65536 then
      .ok (s.place (imageWord bytes 0) (imageWords bytes n)) else .error .pastEnd := by
  have hwords : wordsOfBytes bytes = some (imageWord bytes 0 :: imageWords bytes n) := by
    rw [wordsOfBytes_of_even h, List.range_succ_eq_map, List.map_cons, List.map_map]
    rfl
  simp [State.load, hwords]

/-- Settles O49, from the one test that `load` makes of a stream of whole words. -/
theorem loadRefusesExactlyThePastEnd : Obligations.LoadRefusesExactlyThePastEnd := by
  intro s bytes n h
  rw [State.load_of_even s h]
  split
  next hfits => simpa using hfits
  next hpast => simpa using hpast

/-- A stream of odd length or without an origin gives no state. -/
theorem State.load_error_of_odd_or_empty (s : State) {bytes : List Byte} (h : bytes.length % 2 = 1 ∨ bytes = []) :
    ∃ e, s.load bytes = .error e := by
  rcases h with hodd | rfl
  · exact ⟨.midWord, by rw [State.load, wordsOfBytes_of_odd hodd]⟩
  · exact ⟨.noOrigin, rfl⟩

/-- An address other than `a` is one step nearer to the address after `a` (R34). -/
theorem toNat_sub_succ {a b : Word} (h : b ≠ a) : (b - a).toNat = (b - (a + 1)).toNat + 1 := by
  bv_omega

/-- After words are stored from `a` on, an address reads the word that stands as far in the list as the address lies
from `a`, with wrap, and beyond the list what it read before. -/
theorem Memory.read_writeWords {m : Memory} (hm : m.wf = true) {ws : List Word} (hws : ws.length ≤ 65536)
    (a b : Word) :
    (m.writeWords a ws).read b = ws.getD (b - a).toNat (m.read b) := by
  induction ws generalizing m a with
  | nil => rfl
  | cons w ws ih =>
    rw [List.length_cons] at hws
    rw [Memory.writeWords, ih (Memory.wf_write a w hm) (by omega), Memory.read_write hm]
    split
    next hb =>
      have hfar : ws.length ≤ (b - (a + 1)).toNat := by bv_omega
      rw [List.getD_eq_default _ _ hfar, hb, BitVec.sub_self]
      rfl
    next hb => rw [toNat_sub_succ hb, List.getD_cons_succ]

theorem Memory.read_writeWords_inside {m : Memory} (hm : m.wf = true) {bytes : List Byte} {n k : Nat}
    (hn : n ≤ 65536) (hk : k < n) (a : Word) :
    (m.writeWords a (imageWords bytes n)).read (a + BitVec.ofNat 16 k) = imageWord bytes (k + 1) := by
  have hdist : (a + BitVec.ofNat 16 k - a).toNat = k := by
    rw [BitVec.add_comm, BitVec.add_sub_cancel]
    exact Nat.mod_eq_of_lt (by omega)
  rw [Memory.read_writeWords hm (by simpa using hn), hdist, getD_imageWords hk]

theorem Memory.read_writeWords_outside {m : Memory} (hm : m.wf = true) {ws : List Word} {a b : Word}
    (hfits : a.toNat + ws.length ≤ 65536) (hb : b.toNat < a.toNat ∨ a.toNat + ws.length ≤ b.toNat) :
    (m.writeWords a ws).read b = m.read b := by
  have hfar : ws.length ≤ (b - a).toNat := by bv_omega
  rw [Memory.read_writeWords hm (by omega), List.getD_eq_default _ _ hfar]

/-- Settles O48: an image that fits is placed, and read back by distance from its origin. -/
theorem loadPlacesTheImage : Obligations.LoadPlacesTheImage := by
  refine ⟨fun s bytes n hm hlen hfits => ?_, fun s bytes => s.load_error_of_odd_or_empty⟩
  refine ⟨s.place (imageWord bytes 0) (imageWords bytes n), by rw [State.load_of_even s hlen, if_pos hfits], rfl,
    fun k hk => Memory.read_writeWords_inside hm (by omega) hk _, fun a ha => ?_, rfl⟩
  exact Memory.read_writeWords_outside hm (by simpa using hfits) (by simpa using ha)

end Sys2Proof.Machine
end

section
/-! PROOFS. The family of 30_encoding.md: the fields of a word, decoding what was encoded, every word's effect, the bits
that do not matter, and sign extension. A field of an encoded instruction is a field of its twelve low bits, so decoding
back is a matter of cutting those at the widths of R53; a bit that an instruction ignores lies outside every field that
its decoding reads. -/

namespace Sys2Proof.Machine

/-! ## The fields of an encoded instruction are fields of its low bits (R52) -/

section
variable (i : Instr)

@[simp] theorem drField_encode : drField (encode i) = Reg.ofBits (i.lowBits.extractLsb' 9 3) :=
  congrArg Reg.ofBits (extract_encode i (by decide))

@[simp] theorem sr1Field_encode : sr1Field (encode i) = Reg.ofBits (i.lowBits.extractLsb' 6 3) :=
  congrArg Reg.ofBits (extract_encode i (by decide))

@[simp] theorem sr2Field_encode : sr2Field (encode i) = Reg.ofBits (i.lowBits.extractLsb' 0 3) :=
  congrArg Reg.ofBits (extract_encode i (by decide))

@[simp] theorem imm5Field_encode : imm5Field (encode i) = i.lowBits.extractLsb' 0 5 := extract_encode i (by decide)

@[simp] theorem off6Field_encode : off6Field (encode i) = i.lowBits.extractLsb' 0 6 := extract_encode i (by decide)

@[simp] theorem off9Field_encode : off9Field (encode i) = i.lowBits.extractLsb' 0 9 := extract_encode i (by decide)

@[simp] theorem off11Field_encode : off11Field (encode i) = i.lowBits.extractLsb' 0 11 := extract_encode i (by decide)

@[simp] theorem vectorField_encode : vectorField (encode i) = i.lowBits.extractLsb' 0 8 := extract_encode i (by decide)

/-- A bit is a field one bit wide. -/
theorem bit_encode_eq_field {k : Nat} (h : k < 12) :
    (encode i).getLsbD k = (i.lowBits.extractLsb' k 1 == 1#1) := by
  rw [bit_encode i h, BitVec.getLsbD_eq_extractLsb']

@[simp] theorem immediateBit_encode : immediateBit (encode i) = (i.lowBits.extractLsb' 5 1 == 1#1) :=
  bit_encode_eq_field i (by decide)

@[simp] theorem jsrModeBit_encode : jsrModeBit (encode i) = (i.lowBits.extractLsb' 11 1 == 1#1) :=
  bit_encode_eq_field i (by decide)

@[simp] theorem nBit_encode : nBit (encode i) = (i.lowBits.extractLsb' 11 1 == 1#1) :=
  bit_encode_eq_field i (by decide)

@[simp] theorem zBit_encode : zBit (encode i) = (i.lowBits.extractLsb' 10 1 == 1#1) :=
  bit_encode_eq_field i (by decide)

@[simp] theorem pBit_encode : pBit (encode i) = (i.lowBits.extractLsb' 9 1 == 1#1) :=
  bit_encode_eq_field i (by decide)

end

theorem ofBool_beq_one (b : Bool) : (BitVec.ofBool b == 1#1) = b := by
  cases b <;> rfl

/-! ## Decoding an encoded instruction (R53, R61) -/

theorem opcodeMap_encode (i : Instr) : opcodeMap (opcodeField (encode i)) = i.opcode := by
  rw [opcodeField_encode, opcodeMap_opcodeBits]

/-- Outside TRAP the first stage of decoding gives the instruction back: for each layout of R53, the low bits are cut
from the right at the widths of their parts. -/
theorem decodeOpcode_encode {i : Instr} (h : i.opcode ≠ .trap) : decodeOpcode (encode i) = i := by
  rw [decodeOpcode, opcodeMap_encode]
  cases i with
  | trap | getc | out | puts | inChar | putsp | halt | trapOther => exact absurd rfl h
  | rti | res => rfl
  | lea | ld | ldi | st | sti =>
    simp [Instr.opcode, Instr.lowBits, BitVec.extractLsb'_append_eq_ite (w := 9)]
  | ldr | str | not | jmp | jsrr =>
    simp [Instr.opcode, Instr.lowBits, BitVec.extractLsb'_append_eq_ite (w := 6),
      BitVec.extractLsb'_append_eq_ite (w := 3)]
  | addReg | andReg =>
    simp [Instr.opcode, Instr.lowBits, BitVec.extractLsb'_append_eq_ite (w := 3)]
  | addImm | andImm =>
    simp [Instr.opcode, Instr.lowBits, BitVec.extractLsb'_append_eq_ite (w := 5),
      BitVec.extractLsb'_append_eq_ite (w := 1), BitVec.extractLsb'_append_eq_ite (w := 3)]
  | br =>
    simp [Instr.opcode, Instr.lowBits, ofBool_beq_one, BitVec.extractLsb'_append_eq_ite (w := 9),
      BitVec.extractLsb'_append_eq_ite (w := 1)]
  | jsr =>
    simp [Instr.opcode, Instr.lowBits, BitVec.extractLsb'_append_eq_ite (w := 11)]

theorem decodeOpcode_encode_of_trap {i : Instr} (h : i.opcode = .trap) :
    decodeOpcode (encode i) = .trap (i.lowBits.extractLsb' 0 8) := by
  rw [decodeOpcode, opcodeMap_encode, h, vectorField_encode]

/-- The vector of a well-formed TRAP selects the row that it stands in (R59). -/
theorem trapRow_lowBits {i : Instr} (h : i.opcode = .trap) (hw : WellFormed i = true) :
    trapRow (i.lowBits.extractLsb' 0 8) = i := by
  cases i with
  | trap v => cases hw
  | trapOther v =>
    have hv : (Instr.trapOther v).lowBits.extractLsb' 0 8 = v := field_low (0 : BitVec 4) v
    rw [hv, trapRow_of_other hw]
  | getc | out | puts | inChar | putsp | halt => rfl
  | _ => cases h

theorem decode_encode {i : Instr} (hw : WellFormed i = true) : decode (encode i) = i := by
  rw [decode]
  by_cases h : i.opcode = .trap
  · rw [decodeOpcode_encode_of_trap h]
    exact trapRow_lowBits h hw
  · rw [decodeOpcode_encode h, resolveTrap_of_wellFormed hw]

/-- Settles O2, from the two stages of decoding. -/
theorem decodeOfEncodeIsTheInstruction : Obligations.DecodeOfEncodeIsTheInstruction :=
  fun _ => decode_encode

/-! ## The fields of a word as arithmetic on its number (R52) -/

theorem toNat_field (w : Word) (start len : Nat) :
    (w.extractLsb' start len).toNat = w.toNat / 2 ^ start % 2 ^ len := by
  rw [BitVec.extractLsb'_toNat, Nat.shiftRight_eq_div_pow]

theorem toNat_lowField (w : Word) (len : Nat) : (w.extractLsb' 0 len).toNat = w.toNat % 2 ^ len := by
  rw [toNat_field, Nat.pow_zero, Nat.div_one]

theorem toNat_opcodeField (w : Word) : (opcodeField w).toNat = w.toNat / 4096 := by
  have hlt : w.toNat / 4096 < 16 := by have := w.isLt; omega
  exact (toNat_field w 12 4).trans (Nat.mod_eq_of_lt hlt)

theorem toNat_drField (w : Word) : (drField w).bits.toNat = w.toNat / 512 % 8 := by
  rw [drField, Reg.bits_ofBits]
  exact toNat_field w 9 3

theorem toNat_sr1Field (w : Word) : (sr1Field w).bits.toNat = w.toNat / 64 % 8 := by
  rw [sr1Field, Reg.bits_ofBits]
  exact toNat_field w 6 3

theorem toNat_sr2Field (w : Word) : (sr2Field w).bits.toNat = w.toNat % 8 := by
  rw [sr2Field, Reg.bits_ofBits]
  exact toNat_lowField w 3

theorem bit_iff (w : Word) (k : Nat) : w.getLsbD k = true ↔ w.toNat / 2 ^ k % 2 = 1 := by
  rw [← BitVec.testBit_toNat, Nat.testBit_eq_decide_div_mod_eq, decide_eq_true_iff]

/-! ## Sign extension (R55) -/

/-- Sign extension keeps the signed value, which has the range of its width. -/
theorem sext_range {n : Nat} (hn : n ≤ 16) (x : BitVec n) :
    -2 ^ (n - 1) ≤ (sext x).toInt ∧ (sext x).toInt ≤ 2 ^ (n - 1) - 1 := by
  rw [sext, BitVec.toInt_signExtend_of_le hn]
  exact ⟨BitVec.le_toInt x, BitVec.toInt_le⟩

theorem toNat_sext {n : Nat} (hn : n ≤ 16) (x : BitVec n) :
    (sext x).toNat = if x.toNat < 2 ^ (n - 1) then x.toNat else x.toNat + (65536 - 2 ^ n) := by
  have hx : x.toNat % 2 ^ 16 = x.toNat :=
    Nat.mod_eq_of_lt (x.isLt.trans_le (Nat.pow_le_pow_right (by decide) hn))
  rw [sext, BitVec.toNat_signExtend, BitVec.toNat_setWidth, hx, BitVec.msb_eq_decide]
  by_cases h : x.toNat < 2 ^ (n - 1)
  · simp [h]
  · simp [h, Nat.le_of_not_lt h]

/-- Settles O1, from where a field and a bit stand in a word's number. -/
theorem fieldsStandWhereTheTablePutsThem : Obligations.FieldsStandWhereTheTablePutsThem :=
  ⟨fun w => ⟨toNat_opcodeField w, toNat_drField w, toNat_sr1Field w, toNat_sr2Field w, toNat_lowField w 5,
    toNat_lowField w 6, toNat_lowField w 9, toNat_lowField w 11, toNat_lowField w 8, bit_iff w 5, bit_iff w 11,
    bit_iff w 11, bit_iff w 10, bit_iff w 9⟩,
    sext_range (by decide), sext_range (by decide), sext_range (by decide), sext_range (by decide)⟩

/-- Settles O7, from the formula at every width up to a word's; the three addresses are plain sums. -/
theorem signExtensionFollowsItsFormula : Obligations.SignExtensionFollowsItsFormula :=
  ⟨toNat_sext (by decide), toNat_sext (by decide), toNat_sext (by decide), toNat_sext (by decide),
    fun _ => ⟨fun _ => BitVec.toNat_add _ _, fun _ _ => BitVec.toNat_add _ _, fun _ => BitVec.toNat_add _ _⟩⟩

/-! ## Every word (R58) -/

/-- TRAP_other comes from resolving a vector alone. -/
theorem decodeOpcode_ne_trapOther (w : Word) (v : BitVec 8) : decodeOpcode w ≠ .trapOther v := by
  rw [decodeOpcode]
  cases opcodeMap (opcodeField w) with
  | add | and | jsr => dsimp only; split <;> nofun
  | _ => nofun

theorem wellFormed_decode (w : Word) : WellFormed (decode w) = true := by
  rw [decode]
  cases hd : decodeOpcode w with
  | trap v => exact wellFormed_trapRow v
  | trapOther v => exact absurd hd (decodeOpcode_ne_trapOther w v)
  | _ => rfl

theorem halted_before_or_halt {w : Word} {s t : State} (h : exec (decode w) s = .next t) (ht : t.halted = true) :
    s.halted = true ∨ decode w = .halt := by
  rw [exec_halted h] at ht
  cases hs : s.halted with
  | true => exact .inl rfl
  | false =>
    rw [hs, haltedAfter_false_iff, resolveTrap_decode] at ht
    exact .inr ht

/-- RTI and the reserved opcode do nothing (R128, R129). -/
theorem exec_of_rti_or_reserved {i : Instr} (h : i.opcode = .rti ∨ i.opcode = .reserved) (s : State) :
    exec i s = .next s := by
  cases i with
  | rti | res => rfl
  | _ => rcases h with h | h <;> cases h

/-- Settles O3: an instruction that is decoded is well formed, and every instruction answers a next state. -/
theorem everyWordHasADefinedEffect : Obligations.EveryWordHasADefinedEffect := by
  refine fun w => ⟨wellFormed_decode w, fun s => ?_⟩
  obtain ⟨t, ht⟩ := exec_next (decode w) s
  refine ⟨t, ht, halted_before_or_halt ht, fun hop => ?_⟩
  rw [← opcode_decode] at hop
  rw [exec_of_rti_or_reserved hop] at ht
  cases ht
  rfl

/-! ## Ignored bits (R57) -/

section
variable (w m : Word) {mask : Word}

/-- Inverting bits of a mask leaves a field outside the mask as it is. -/
theorem field_flip_outside {start len : Nat} (h : mask.extractLsb' start len = 0#len) :
    (w ^^^ (m &&& mask)).extractLsb' start len = w.extractLsb' start len := by
  rw [BitVec.extractLsb'_xor, BitVec.extractLsb'_and, h, BitVec.and_zero, BitVec.xor_zero]

theorem bit_flip_outside {k : Nat} (h : mask.getLsbD k = false) : (w ^^^ (m &&& mask)).getLsbD k = w.getLsbD k := by
  rw [BitVec.getLsbD_xor, BitVec.getLsbD_and, h, Bool.and_false, Bool.xor_false]

/-- No bit of the opcode is ignored. -/
theorem opcodeField_ignoredMask : opcodeField (ignoredMask w) = 0 := by
  rw [ignoredMask]
  cases opcodeMap (opcodeField w) with
  | add | and | jsr => dsimp only; split <;> rfl
  | _ => dsimp only; rfl

/-- In each row of R57 the fields that decoding reads lie outside the ignored bits, the mode bits among them. -/
theorem decodeOpcode_flip_ignored : decodeOpcode (w ^^^ (m &&& ignoredMask w)) = decodeOpcode w := by
  have hop : opcodeField (w ^^^ (m &&& ignoredMask w)) = opcodeField w :=
    field_flip_outside w m (opcodeField_ignoredMask w)
  rw [decodeOpcode, decodeOpcode, hop, ignoredMask]
  cases opcodeMap (opcodeField w) with
  | add | and =>
    cases hi : immediateBit w
    · have hmode : immediateBit (w ^^^ (m &&& 0x0018#16)) = false := (bit_flip_outside w m rfl).trans hi
      simp [hmode, drField, sr1Field, sr2Field, field_flip_outside]
    · simp [hi]
  | jsr =>
    cases hl : jsrModeBit w
    · have hmode : jsrModeBit (w ^^^ (m &&& 0x063F#16)) = false := (bit_flip_outside w m rfl).trans hl
      simp [hmode, sr1Field, field_flip_outside]
    · simp [hl]
  | not => simp [drField, sr1Field, field_flip_outside]
  | jmp => simp [sr1Field, field_flip_outside]
  | trap => simp [vectorField, field_flip_outside]
  | rti | reserved => rfl
  | _ => simp

end

/-- Settles O4, from the first stage of decoding; the second sees nothing else. -/
theorem ignoredBitsDoNotMatter : Obligations.IgnoredBitsDoNotMatter :=
  fun w m => congrArg resolveTrap (decodeOpcode_flip_ignored w m)

end Sys2Proof.Machine
end

section
/-! PROOFS. The family of 40_step_cycle.md: the two ends of a step, the steps that do not finish, the invariant, and the
control-signal table. What an unfinished step can be is said once (`exec_unfinished_cases`): GETC or IN without a key,
PUTS without a zero word; the next model step of each begins from the same fetched state, but for the display and the
mark of the prompt. -/

namespace Sys2Proof.Machine

/-! ## The two ends of a step (R81, R82) -/

/-- The sum modulo 2^16 of R82. -/
theorem add_one_eq_ofNat_mod (a : Word) : a + 1 = BitVec.ofNat 16 ((a.toNat + 1) % 65536) :=
  BitVec.eq_of_toNat_eq (by simp [BitVec.toNat_add])

theorem State.settle_of_unfinished (s : State) {u : State} (h : u.unfinished = true) :
    s.settle u = { u with pc := s.pc, ir := s.ir } :=
  if_pos h

section
variable {s u : State} {i : Instr} (hh : s.halted = false) (hd : decode (s.memRead s.pc) = i)
  (hu : exec i s.fetch = .next u)
include hh hd hu

/-- A step whose instruction is known and finishes leaves what the instruction leaves. -/
theorem step_of_finished (hf : u.unfinished = false) : step s = .next u := by
  subst hd
  rw [step_of_exec hh hu, State.settle_finished s hf]

/-- A step whose instruction is known and does not finish keeps PC and IR. -/
theorem step_of_unfinished (hf : u.unfinished = true) : step s = .next { u with pc := s.pc, ir := s.ir } := by
  subst hd
  rw [step_of_exec hh hu, State.settle_of_unfinished s hf]

end

/-- Settles O32: the fetch by its definition, the step by `step_of_exec` and the two cases of `settle`. -/
theorem stepRunsTheDecodedInstruction : Obligations.StepRunsTheDecodedInstruction :=
  ⟨fun s => by rw [← add_one_eq_ofNat_mod]; rfl,
    fun _ _ _ hh hd hu => ⟨step_of_exec hh (hd ▸ hu), step_of_finished hh hd hu, step_of_unfinished hh hd hu⟩⟩

/-- Settles O33, from the two values of `halted`. -/
theorem stepStopsExactlyWhenHalted : Obligations.StepStopsExactlyWhenHalted :=
  fun _ => ⟨step_of_halted, step_next_of_not_halted⟩

/-! ## What an instruction makes of the two marks (R88, R89) -/

/-- Everything an instruction can be and do that leaves its step unfinished. -/
theorem exec_unfinished_cases {i : Instr} {s t : State} (hs : s.unfinished = false) (h : exec i s = .next t)
    (ht : t.unfinished = true) :
    (resolveTrap i = .getc ∧ s.keys = [] ∧ t = s.suspend) ∨
    (resolveTrap i = .inChar ∧ s.keys = [] ∧ t = s.promptOnce.suspend) ∨
    (resolveTrap i = .puts ∧ (s.mem.stringAt (s.reg .r0)).2 = false ∧
      t = (s.charsOut (s.mem.stringAt (s.reg .r0)).1).suspend) := by
  have hsame : t.unfinished ≠ s.unfinished := by simp [hs, ht]
  induction i using Instr.byRow with
  | trap v ih =>
    rw [exec_trap] at h
    rw [resolveTrap_trapRow] at ih
    exact ih h
  | row i hi =>
    cases i with
    | trap v => exact absurd rfl (hi v)
    | getc =>
      rcases execGetc_cases h with ⟨hk, rfl⟩ | ⟨k, ks, -, rfl⟩
      · exact .inl ⟨rfl, hk, rfl⟩
      · exact absurd rfl hsame
    | inChar =>
      rcases execIn_cases h with ⟨hk, rfl⟩ | ⟨k, ks, -, rfl⟩
      · exact .inr (.inl ⟨rfl, hk, rfl⟩)
      · exact absurd (State.promptOnce_unfinished s) hsame
    | puts =>
      rcases execPuts_cases h with ⟨-, rfl⟩ | ⟨hc, rfl⟩
      · exact absurd rfl hsame
      · exact .inr (.inr ⟨rfl, hc, rfl⟩)
    | br n z p off9 => rcases execBr_cases h with ⟨-, rfl⟩ | ⟨-, rfl⟩ <;> exact absurd rfl hsame
    | _ => cases h; exact absurd rfl hsame

/-- An unfinished step is that of a GETC, IN or PUTS; it keeps memory and `halted`, and IN alone marks a prompt. -/
theorem exec_unfinished {i : Instr} {s t : State} (hs : s.unfinished = false) (h : exec i s = .next t)
    (ht : t.unfinished = true) :
    mayBeUnfinished (resolveTrap i) = true ∧ t.mem = s.mem ∧ t.halted = s.halted ∧
      (resolveTrap i ≠ .inChar → t.prompted = s.prompted) := by
  rcases exec_unfinished_cases hs h ht with ⟨hi, -, rfl⟩ | ⟨hi, -, rfl⟩ | ⟨hi, -, rfl⟩ <;> simp [hi, mayBeUnfinished]

/-- A finished IN leaves no prompt marked, and no other finished instruction marks one. -/
theorem exec_finished_prompted {i : Instr} {s t : State} (h : exec i s = .next t) (ht : t.unfinished = false)
    (hp : t.prompted = true) : s.prompted = true ∧ resolveTrap i ≠ .inChar := by
  induction i using Instr.byRow with
  | trap v ih =>
    rw [exec_trap] at h
    rw [resolveTrap_trapRow] at ih
    exact ih h
  | row i hi =>
    cases i with
    | trap v => exact absurd rfl (hi v)
    | getc =>
      rcases execGetc_cases h with ⟨-, rfl⟩ | ⟨k, ks, -, rfl⟩
      · cases ht
      · exact ⟨hp, nofun⟩
    | inChar =>
      rcases execIn_cases h with ⟨-, rfl⟩ | ⟨k, ks, -, rfl⟩
      · cases ht
      · cases hp
    | puts =>
      rcases execPuts_cases h with ⟨-, rfl⟩ | ⟨-, rfl⟩
      · exact ⟨hp, nofun⟩
      · cases ht
    | br n z p off9 => rcases execBr_cases h with ⟨-, rfl⟩ | ⟨-, rfl⟩ <;> exact ⟨hp, nofun⟩
    | _ => cases h; exact ⟨hp, nofun⟩

/-! ## The invariant (R33, R88, R89) -/

/-- Every instruction keeps memory canonical. -/
theorem exec_wf {i : Instr} {s t : State} (hm : s.mem.wf = true) (h : exec i s = .next t) : t.mem.wf = true := by
  cases ha : storeAddress i s with
  | none => rwa [exec_mem_of_not_store ha h]
  | some a =>
    obtain ⟨sr, hs⟩ := exec_of_storeAddress ha
    rw [hs] at h
    cases h
    exact Memory.wf_write a _ hm

/-- Settles O51. A finished step can only keep a prompt of an instruction other than IN, and the invariant rules that
out; an unfinished one leaves PC and memory, and so the instruction at the PC, as they were. -/
theorem everyStepKeepsTheInvariant : Obligations.EveryStepKeepsTheInvariant := by
  rintro s t ⟨hmem, -, hprompt⟩ h
  obtain ⟨hh, u, hu, rfl⟩ := step_cases h
  have hwf : u.mem.wf = true := exec_wf (s := s.fetch) hmem hu
  cases hf : u.unfinished with
  | false =>
    rw [State.settle_finished s hf]
    refine ⟨hwf, fun ht => absurd (hf.symm.trans ht) nofun, fun hp => ?_⟩
    obtain ⟨hps, hne⟩ := exec_finished_prompted hu hf hp
    rw [resolveTrap_decode] at hne
    exact absurd (hprompt hps).1 hne
  | true =>
    obtain ⟨hi, hm, hhalted, hp⟩ := exec_unfinished s.fetch_unfinished hu hf
    rw [resolveTrap_decode] at hi hp
    rw [State.settle_of_unfinished s hf]
    have hword : u.memRead s.pc = s.memRead s.pc := State.memRead_congr hm s.pc
    refine ⟨hwf, fun _ => ⟨(congrArg (mayBeUnfinished ∘ decode) hword).trans hi, hhalted.trans hh⟩,
      fun ht => ⟨(congrArg decode hword).trans ?_, hf⟩⟩
    by_contra hne
    exact hne (hprompt ((hp hne).symm.trans ht)).1

/-! ## Waiting for a key (R88, R121, R124) -/

section
variable {s : State} (hh : s.halted = false)
include hh

theorem step_getc_of_no_key (hk : s.keys = []) (hd : decode (s.memRead s.pc) = .getc) :
    step s = .next { s with unfinished := true } :=
  step_of_unfinished hh hd (execGetc_of_no_key (s := s.fetch) hk) rfl

theorem step_getc_of_key {k : Word} {ks : List Word} (hk : s.keys = k :: ks) (hd : decode (s.memRead s.pc) = .getc) :
    step s = .next (State.setReg { s.fetch with keys := ks } .r0 k) :=
  step_of_finished hh hd (execGetc_of_key (s := s.fetch) hk) rfl

theorem step_in_of_no_key (hk : s.keys = []) (hd : decode (s.memRead s.pc) = .inChar) :
    step s = .next { s with unfinished := true, prompted := true,
                            display := s.display ++ (if s.prompted then [] else Config.inPrompt) } := by
  rw [step_of_unfinished hh hd (execIn_of_no_key (s := s.fetch) hk) rfl]
  cases hp : s.prompted <;> simp [State.promptOnce_display, hp]

theorem step_in_of_key {k : Word} {ks : List Word} (hk : s.keys = k :: ks) (hd : decode (s.memRead s.pc) = .inChar) :
    step s = .next { (State.setReg { s.fetch.promptOnce with keys := ks } .r0 k).charOut k with prompted := false } :=
  step_of_finished hh hd (execIn_of_key (s := s.fetch) hk) (State.promptOnce_unfinished s.fetch)

end

/-- Settles O43, from the waits of GETC and IN. -/
theorem waitingChangesOnlyThePrompt : Obligations.WaitingChangesOnlyThePrompt :=
  fun _ hh hk => ⟨step_getc_of_no_key hh hk, step_in_of_no_key hh hk⟩

theorem State.keys_deliverKey_of_no_key {s : State} (h : s.keys = []) (k : Word) : (s.deliverKey k).keys = [k] :=
  congrArg (· ++ [k]) h

/-- A waiting IN that has written its prompt waits on as it is. -/
theorem step_in_of_waiting {w : State} (hh : w.halted = false) (hk : w.keys = [])
    (hd : decode (w.memRead w.pc) = .inChar) (hu : w.unfinished = true) (hp : w.prompted = true) :
    step w = .next w := by
  rw [step_in_of_no_key hh hk hd]
  cases w
  simp_all

/-- Settles O44. A fetch clears the mark of a waiting GETC, and a prompt already written leaves a waiting IN where an
unwritten one brings it, so the late key finds the state that the early one finds. -/
theorem aKeyEndsTheWait : Obligations.AKeyEndsTheWait := by
  rintro s w k hh hp hk (hd | hd) hw
  · rw [step_getc_of_no_key hh hk hd] at hw
    cases hw
    have hkey := State.keys_deliverKey_of_no_key hk k
    exact ⟨rfl, step_getc_of_no_key (s := { s with unfinished := true }) hh hk hd, _,
      step_getc_of_key (s := State.deliverKey { s with unfinished := true } k) hh hkey hd,
      step_getc_of_key (s := s.deliverKey k) hh hkey hd, rfl, rfl, rfl⟩
  · rw [step_in_of_no_key hh hk hd, hp] at hw
    injection hw with hw
    obtain ⟨hwh, hwk, hwd, hwu, hwp⟩ : w.halted = false ∧ w.keys = [] ∧ decode (w.memRead w.pc) = .inChar ∧
        w.unfinished = true ∧ w.prompted = true := hw ▸ ⟨hh, hk, hd, rfl, rfl⟩
    have hprompt : (w.deliverKey k).fetch.promptOnce = (s.deliverKey k).fetch.promptOnce := by
      rw [State.promptOnce_of_prompted (s := (w.deliverKey k).fetch) hwp,
        State.promptOnce_of_not_prompted (s := (s.deliverKey k).fetch) hp, ← hw]
      rfl
    have hlate := step_in_of_key (s := w.deliverKey k) hwh (State.keys_deliverKey_of_no_key hwk k) hwd
    have hearly := step_in_of_key (s := s.deliverKey k) hh (State.keys_deliverKey_of_no_key hk k) hd
    rw [hprompt] at hlate
    exact ⟨hwu, step_in_of_waiting hwh hwk hwd hwu hwp, _, hlate, hearly, State.promptOnce_unfinished _, rfl,
      State.promptOnce_pc _⟩

/-! ## PUTS without a zero word (R89, R123, D14) -/

/-- The words of one lap and more are those of the lap and, from the same address again, the rest (R34). -/
theorem wordsFrom_lap_add (s : State) (a : Word) (n : Nat) :
    wordsFrom s a (65536 + n) = wordsFrom s a 65536 ++ wordsFrom s a n := by
  have hlap (j : Nat) : BitVec.ofNat 16 (65536 + j) = BitVec.ofNat 16 j := by
    rw [BitVec.ofNat_add, show BitVec.ofNat 16 65536 = 0#16 from rfl, BitVec.zero_add]
  simp only [wordsFrom, List.range_add, List.map_append, List.map_map, Function.comp_def, hlap]

/-- Over a memory without a zero word PUTS writes one lap and does not finish. -/
theorem execPuts_of_no_zero {s : State} (hz : ∀ a, s.memRead a ≠ 0) :
    execPuts s = .next (s.charsOut (wordsFrom s (s.reg .r0) 65536)).suspend := by
  have hstring : s.mem.stringAt (s.reg .r0) = (wordsFrom s (s.reg .r0) 65536, false) :=
    Memory.stringFrom_endless s.mem hz 65536 (s.reg .r0)
  rw [execPuts_of_endless (by rw [hstring]), hstring]

theorem step_puts_of_no_zero {s : State} (hh : s.halted = false) (hd : decode (s.memRead s.pc) = .puts)
    (hz : ∀ a, s.memRead a ≠ 0) :
    step s = .next { s with unfinished := true, display := s.display ++ wordsFrom s (s.reg .r0) 65536 } :=
  step_of_unfinished hh hd (execPuts_of_no_zero (s := s.fetch) hz) rfl

/-- A machine that steps to `t` runs on from `t`. -/
theorem run_succ {M : Host.Core} {s t : M.State} (h : M.step s = .next t) (n : Nat) : M.run (n + 1) s = M.run n t := by
  rw [Host.Core.run, h]

/-- Settles O45, by induction on the number of model steps: each writes one more lap over the same memory. -/
theorem putsWithoutAZeroWordNeverCompletes : Obligations.PutsWithoutAZeroWordNeverCompletes := by
  intro s hh hd hz n
  have hstep := step_puts_of_no_zero hh hd hz
  induction n generalizing s with
  | zero => exact run_succ (M := core) hstep 0
  | succ n ih =>
    have hlaps : (n + 1 + 1) * 65536 = 65536 + (n + 1) * 65536 := by omega
    rw [hlaps, wordsFrom_lap_add, ← List.append_assoc]
    exact (run_succ (M := core) hstep (n + 1)).trans (ih _ hh hd hz (step_puts_of_no_zero hh hd hz))

/-! ## The control-signal table (R87, R97) -/

section
variable {c : Signals} {s t : State} {k : Word}

/-- While the ports hold the step up, no register, memory or PC is written. -/
theorem Signals.run_of_waiting (hio : c.ioOut s = ⟨false, k, t⟩) : c.run s = t.suspend := by
  rw [Signals.run, hio]
  rfl

/-- The two rows that take a key write it to R0 and take the incremented PC. -/
theorem Signals.run_of_key (hc : c = .getc ∨ c = .inChar) (hio : c.ioOut s = ⟨true, k, t⟩) :
    c.run s = { t.setReg .r0 k with pc := s.pc } := by
  rw [Signals.run, hio]
  rcases hc with rfl | rfl <;> rfl

end

theorem exec_getc_eq_run (s : State) : exec .getc s = .next (Signals.getc.run s) := by
  rcases State.keyIn_cases s with ⟨hk, hin⟩ | ⟨k, ks, hk, hin⟩
  · have hio : Signals.getc.ioOut s = ⟨false, 0, s⟩ := by simp [Signals.getc, Signals.ioOut, hin]
    rw [exec, execGetc_of_no_key hk, Signals.run_of_waiting hio]
  · have hio : Signals.getc.ioOut s = ⟨true, k, { s with keys := ks }⟩ := by
      simp [Signals.getc, Signals.ioOut, hin]
    rw [exec, execGetc_of_key hk, Signals.run_of_key (.inl rfl) hio]
    rfl

theorem exec_in_eq_run (s : State) : exec .inChar s = .next (Signals.inChar.run s) := by
  rcases State.keyIn_cases s.promptOnce with ⟨hk, hin⟩ | ⟨k, ks, hk, hin⟩
  · have hio : Signals.inChar.ioOut s = ⟨false, 0, s.promptOnce⟩ := by simp [Signals.inChar, Signals.ioOut, hin]
    rw [State.promptOnce_keys] at hk
    rw [exec, execIn_of_no_key hk, Signals.run_of_waiting hio]
  · have hio : Signals.inChar.ioOut s =
        ⟨true, k, { State.charOut { s.promptOnce with keys := ks } k with prompted := false }⟩ := by
      simp [Signals.inChar, Signals.ioOut, hin]
    rw [State.promptOnce_keys] at hk
    rw [exec, execIn_of_key hk, Signals.run_of_key (.inr rfl) hio, ← State.promptOnce_pc s]
    rfl

/-- PUTS finishes on the datapath exactly when its string has a zero word. -/
theorem exec_puts_eq_run (s : State) : exec .puts s = .next (Signals.puts.run s) := by
  have hio : Signals.puts.ioOut s = ⟨(s.mem.stringAt (s.reg .r0)).2, 0, s.charsOut (s.mem.stringAt (s.reg .r0)).1⟩ :=
    rfl
  cases hc : (s.mem.stringAt (s.reg .r0)).2 with
  | false =>
    rw [hc] at hio
    rw [exec, execPuts_of_endless hc, Signals.run_of_waiting hio]
  | true =>
    rw [hc] at hio
    rw [exec, execPuts_of_ended hc, Signals.run, hio]
    rfl

/-- The row that a trap vector selects takes no operand from IR. -/
theorem exec_trapRow_eq_run (v : BitVec 8) (s : State) :
    exec (trapRow v) s = .next ((signals (trapRow v)).run s) := by
  cases hr : trapRow v with
  | trap u => exact absurd hr (trapRow_ne_trap v u)
  | getc => exact exec_getc_eq_run s
  | puts => exact exec_puts_eq_run s
  | inChar => exact exec_in_eq_run s
  | out | putsp | halt | trapOther => rfl
  | _ => exact absurd ((congrArg Instr.opcode hr).symm.trans (opcode_trapRow v)) nofun

/-- Settles O54, by what the opcode and mode bits of IR select. Where neither CC nor a port decides, what the signals
drive is by definition what the instruction does with the operands that decoding takes from IR. -/
theorem controlSignalsDriveTheDatapath : Obligations.ControlSignalsDriveTheDatapath := by
  intro s
  rw [decode, decodeOpcode]
  cases opcodeMap (opcodeField s.ir) with
  | trap => exact exec_trapRow_eq_run (vectorField s.ir) s
  | br =>
    dsimp only [resolveTrap, exec, execBr, signals, Signals.run, Signals.ioOut, Signals.pcIn]
    split <;> rfl
  | add | and | jsr => dsimp only; split <;> rfl
  | _ => rfl

end Sys2Proof.Machine
end

section
/-! PROOFS. The family of 41_operate.md: what selects ADD, AND, NOT and LEA, and the result of each with its frame. That
a write of a result changes nothing else is said once for the seven instructions of R14
(`exec_registerResult`), so that each statement comes down to the value written. -/

namespace Sys2Proof.Machine

/-! ## A result, its condition code and its frame (R15, R86) -/

/-- The three cases of R15 as ranges of the value. -/
theorem ccFrom_ccOf (v : Word) : CcFrom v (ccOf v) where
  zero := (ccOf_eq_z_iff v).trans BitVec.toNat_inj.symm
  negative := ccOf_eq_n_iff v
  positive := by
    have hv := v.isLt
    rw [ccOf_eq_p_iff, BitVec.toInt_eq_toNat_cond]
    split <;> omega

theorem State.registerResult_writeResult (s : State) (dr : Reg) (v : Word) :
    RegisterResult dr v s (s.writeResult dr v) where
  value := s.reg_writeResult_same dr v
  others _ hr := s.reg_writeResult_other v hr
  cc := ccFrom_ccOf v
  pc := rfl
  memory _ := rfl
  ports := ⟨rfl, rfl, rfl⟩
  rest := ⟨rfl, rfl, rfl, rfl, rfl, rfl⟩

/-- Each of the seven instructions of R14 completes and leaves its result, whatever form the value is given in. -/
theorem exec_registerResult {i : Instr} {dr : Reg} {v : Word} {s : State} (hd : ccDestination i = some dr)
    (hv : resultOf i s = v) : ∃ t, exec i s = .next t ∧ RegisterResult dr v s t :=
  ⟨s.writeResult dr v, hv ▸ exec_of_ccDestination hd s, s.registerResult_writeResult dr v⟩

/-! ## The words that select each instruction (R51, R61) -/

section
variable {w : Word}

theorem decode_addReg (hop : opcodeField w = 0x1) (hm : immediateBit w = false) :
    decode w = .addReg (drField w) (sr1Field w) (sr2Field w) := by
  rw [decode, decodeOpcode, hop, hm]; rfl

theorem decode_addImm (hop : opcodeField w = 0x1) (hm : immediateBit w = true) :
    decode w = .addImm (drField w) (sr1Field w) (imm5Field w) := by
  rw [decode, decodeOpcode, hop, hm]; rfl

theorem decode_andReg (hop : opcodeField w = 0x5) (hm : immediateBit w = false) :
    decode w = .andReg (drField w) (sr1Field w) (sr2Field w) := by
  rw [decode, decodeOpcode, hop, hm]; rfl

theorem decode_andImm (hop : opcodeField w = 0x5) (hm : immediateBit w = true) :
    decode w = .andImm (drField w) (sr1Field w) (imm5Field w) := by
  rw [decode, decodeOpcode, hop, hm]; rfl

theorem decode_not (hop : opcodeField w = 0x9) : decode w = .not (drField w) (sr1Field w) := by
  rw [decode, decodeOpcode, hop]; rfl

theorem decode_lea (hop : opcodeField w = 0xE) : decode w = .lea (drField w) (off9Field w) := by
  rw [decode, decodeOpcode, hop]; rfl

end

/-! ## The values written (R90 to R95) -/

/-- The one's complement as the subtraction of R94. -/
theorem not_eq_ofNat_sub (x : Word) : ~~~x = BitVec.ofNat 16 (0xFFFF - x.toNat) := by
  refine BitVec.eq_of_toNat_eq ?_
  rw [BitVec.toNat_not, BitVec.toNat_ofNat]
  omega

/-- Every bit of an extended value from the sign bit up is the sign bit (R55). -/
theorem getLsbD_sext {n k : Nat} (hn : 0 < n) (x : BitVec n) (hk : k < 16) :
    (sext x).getLsbD k = x.getLsbD (min k (n - 1)) := by
  rw [sext, BitVec.getLsbD_signExtend, decide_eq_true hk, Bool.true_and]
  split
  next h => rw [Nat.min_eq_left (by omega)]
  next h => rw [Nat.min_eq_right (by omega), BitVec.msb_eq_getLsbD_last]

/-! ## The statements -/

/-- Settles O9: the sum of two words is the sum of their numbers modulo 2^16 (`BitVec.add_def`). -/
theorem addRegisterWritesTheSum : Obligations.AddRegisterWritesTheSum :=
  ⟨fun _ => decode_addReg, fun _ _ _ _ => exec_registerResult rfl (BitVec.add_def _ _)⟩

/-- Settles O10, by the same sum with the extended immediate. -/
theorem addImmediateWritesTheSum : Obligations.AddImmediateWritesTheSum :=
  ⟨fun _ => decode_addImm, fun _ _ _ _ => exec_registerResult rfl (BitVec.add_def _ _)⟩

/-- Settles O11: the value is the conjunction of the two words, read bit by bit. -/
theorem andRegisterWritesTheConjunction : Obligations.AndRegisterWritesTheConjunction := by
  refine ⟨fun _ => decode_andReg, fun dr sr1 sr2 s => ?_⟩
  obtain ⟨t, ht, hr⟩ := exec_registerResult (i := .andReg dr sr1 sr2) (s := s) rfl rfl
  exact ⟨t, _, ht, hr, fun _ _ => BitVec.getLsbD_and⟩

/-- Settles O12: the second word is the extended immediate, whose bits above bit 4 repeat bit 4. -/
theorem andImmediateWritesTheConjunction : Obligations.AndImmediateWritesTheConjunction := by
  refine ⟨fun _ => decode_andImm, fun dr sr1 imm5 s => ?_⟩
  obtain ⟨t, ht, hr⟩ := exec_registerResult (i := .andImm dr sr1 imm5) (s := s) rfl rfl
  refine ⟨t, _, ht, hr, fun k hk => ?_⟩
  rw [resultOf, BitVec.getLsbD_and, getLsbD_sext (by decide) imm5 hk]

/-- Settles O13, from the complement as a subtraction. -/
theorem notWritesTheComplement : Obligations.NotWritesTheComplement :=
  ⟨fun _ => decode_not, fun _ sr1 s => exec_registerResult rfl (not_eq_ofNat_sub (s.reg sr1))⟩

/-- Settles O14: the address is the sum of the incremented PC and the extended offset modulo 2^16. -/
theorem leaWritesTheAddress : Obligations.LeaWritesTheAddress :=
  ⟨fun _ => decode_lea, fun _ _ _ => exec_registerResult rfl (BitVec.add_def _ _)⟩

end Sys2Proof.Machine
end

section
/-! PROOFS. The family of 42_load_store.md: what selects the loads and the stores, what each does, and which addresses
it reaches. A load is a register result (`exec_registerResult`) and a store one memory write
(`State.storeResult_memWrite`); a window is the range of the signed offset (`exists_sext_eq_iff`), moved by the base. -/

namespace Sys2Proof.Machine

/-! ## The words that select each instruction (R51, R61) -/

section
variable {w : Word}

theorem decode_ld (hop : opcodeField w = 0x2) : decode w = .ld (drField w) (off9Field w) := by
  rw [decode, decodeOpcode, hop]; rfl

theorem decode_ldi (hop : opcodeField w = 0xA) : decode w = .ldi (drField w) (off9Field w) := by
  rw [decode, decodeOpcode, hop]; rfl

theorem decode_ldr (hop : opcodeField w = 0x6) : decode w = .ldr (drField w) (sr1Field w) (off6Field w) := by
  rw [decode, decodeOpcode, hop]; rfl

theorem decode_st (hop : opcodeField w = 0x3) : decode w = .st (drField w) (off9Field w) := by
  rw [decode, decodeOpcode, hop]; rfl

theorem decode_sti (hop : opcodeField w = 0xB) : decode w = .sti (drField w) (off9Field w) := by
  rw [decode, decodeOpcode, hop]; rfl

theorem decode_str (hop : opcodeField w = 0x7) : decode w = .str (drField w) (sr1Field w) (off6Field w) := by
  rw [decode, decodeOpcode, hop]; rfl

end

/-! ## The effective addresses (R106) -/

/-- The sum modulo 2^16 on the numbers of its two words. -/
theorem State.eaPc_eq_ofNat (s : State) (off9 : BitVec 9) :
    s.eaPc off9 = BitVec.ofNat 16 (s.pc.toNat + (sext off9).toNat) :=
  BitVec.add_def _ _

theorem State.eaInd_eq_memRead_ofNat (s : State) (off9 : BitVec 9) :
    s.eaInd off9 = s.memRead (BitVec.ofNat 16 (s.pc.toNat + (sext off9).toNat)) :=
  congrArg s.memRead (s.eaPc_eq_ofNat off9)

theorem State.eaBase_eq_ofNat (s : State) (base : Reg) (off6 : BitVec 6) :
    s.eaBase base off6 = BitVec.ofNat 16 ((s.reg base).toNat + (sext off6).toNat) :=
  BitVec.add_def _ _

/-- The extended values of a width are the words in its signed range: the offset that gives such a word is the word's
own signed value in fewer bits. -/
theorem exists_sext_eq_iff {n : Nat} (hpos : 0 < n) (hn : n ≤ 16) (d : Word) :
    (∃ x : BitVec n, sext x = d) ↔ -2 ^ (n - 1) ≤ d.toInt ∧ d.toInt ≤ 2 ^ (n - 1) - 1 := by
  refine ⟨fun ⟨x, hx⟩ => hx ▸ sext_range hn x, fun ⟨hlow, hhigh⟩ => ⟨BitVec.ofInt n d.toInt, ?_⟩⟩
  refine BitVec.eq_of_toInt_eq ?_
  rw [sext, BitVec.toInt_signExtend_of_le hn]
  exact BitVec.toInt_ofInt_eq_self hpos hlow (Int.lt_of_le_sub_one hhigh)

/-- What a base and a signed offset reach: the addresses whose distance from the base is in the offset's range. -/
theorem exists_add_sext_eq_iff {n : Nat} (hpos : 0 < n) (hn : n ≤ 16) (base a : Word) :
    (∃ x : BitVec n, base + sext x = a) ↔
      -2 ^ (n - 1) ≤ (a - base).toInt ∧ (a - base).toInt ≤ 2 ^ (n - 1) - 1 := by
  have hdistance (x : BitVec n) : base + sext x = a ↔ sext x = a - base := by
    rw [eq_sub_iff_add_eq, BitVec.add_comm]
  simp only [hdistance, exists_sext_eq_iff hpos hn]

/-- A pointer reaches any address: store that address where the pointer is read. -/
theorem exists_eaInd_eq (off9 : BitVec 9) (a : Word) : ∃ s : State, s.eaInd off9 = a :=
  ⟨State.reset.memWrite (State.reset.eaPc off9) a, Memory.read_write_same _ a rfl⟩

/-! ## The base stays (R106) -/

theorem exec_pc_of_ccDestination {i : Instr} {dr : Reg} {s t : State} (hd : ccDestination i = some dr)
    (h : exec i s = .next t) : t.pc = s.pc := by
  rw [exec_of_ccDestination hd] at h
  cases h
  rfl

theorem exec_pc_of_storeAddress {i : Instr} {a : Word} {s t : State} (ha : storeAddress i s = some a)
    (h : exec i s = .next t) : t.pc = s.pc := by
  obtain ⟨sr, hs⟩ := exec_of_storeAddress ha
  rw [hs] at h
  cases h
  rfl

/-! ## The statements -/

/-- Settles O8: a window is the range of its offset, a pointer is put anywhere by a store, and a base is changed by no
register result, but for its destination, and by no store. -/
theorem effectiveAddressesReachTheirWindow : Obligations.EffectiveAddressesReachTheirWindow := by
  refine ⟨fun s => exists_add_sext_eq_iff (by decide) (by decide) s.pc,
    fun s base => exists_add_sext_eq_iff (by decide) (by decide) (s.reg base), exists_eaInd_eq,
    fun s off9 off6 base => ⟨s.eaPc_eq_ofNat off9, s.eaInd_eq_memRead_ofNat off9, s.eaBase_eq_ofNat base off6⟩,
    fun r base off9 off6 s t => ⟨?pc, ?str, ?ldr⟩⟩
  case pc =>
    rintro (hld | hldi | hst | hsti | hldr | hstr)
    · exact exec_pc_of_ccDestination rfl hld
    · exact exec_pc_of_ccDestination rfl hldi
    · exact exec_pc_of_storeAddress rfl hst
    · exact exec_pc_of_storeAddress rfl hsti
    · exact exec_pc_of_ccDestination rfl hldr
    · exact exec_pc_of_storeAddress rfl hstr
  case str => exact fun h => exec_reg_of_not_written h List.not_mem_nil
  case ldr => exact fun h hne => exec_reg_of_not_written h fun hw => hne (List.mem_singleton.mp hw).symm

/-- Settles O15: LD writes the word at `ea_pc`. -/
theorem ldLoadsFromThePcWindow : Obligations.LdLoadsFromThePcWindow :=
  ⟨fun _ => decode_ld, fun _ off9 s => exec_registerResult rfl (congrArg s.memRead (s.eaPc_eq_ofNat off9))⟩

/-- Settles O16: LDI writes the word at `ea_ind`. -/
theorem ldiLoadsThroughThePointer : Obligations.LdiLoadsThroughThePointer :=
  ⟨fun _ => decode_ldi,
    fun _ off9 s => exec_registerResult rfl (congrArg s.memRead (s.eaInd_eq_memRead_ofNat off9))⟩

/-- Settles O17: LDR writes the word at `ea_base`, taken from the state before the write. -/
theorem ldrLoadsFromTheBaseWindow : Obligations.LdrLoadsFromTheBaseWindow :=
  ⟨fun _ => decode_ldr,
    fun _ base off6 s => exec_registerResult rfl (congrArg s.memRead (s.eaBase_eq_ofNat base off6))⟩

/-- Settles O18: ST is one memory write at `ea_pc`. -/
theorem stStoresInThePcWindow : Obligations.StStoresInThePcWindow :=
  ⟨fun _ => decode_st,
    fun sr off9 s hm => ⟨_, rfl, State.storeResult_memWrite hm (s.eaPc off9) (s.reg sr)⟩⟩

/-- Settles O19: STI is one memory write at `ea_ind`, read before the write. -/
theorem stiStoresThroughThePointer : Obligations.StiStoresThroughThePointer :=
  ⟨fun _ => decode_sti,
    fun sr off9 s hm => ⟨_, rfl, State.storeResult_memWrite hm (s.eaInd off9) (s.reg sr)⟩⟩

/-- Settles O20: STR is one memory write at `ea_base`. -/
theorem strStoresInTheBaseWindow : Obligations.StrStoresInTheBaseWindow :=
  ⟨fun _ => decode_str,
    fun sr base off6 s hm => ⟨_, rfl, State.storeResult_memWrite hm (s.eaBase base off6) (s.reg sr)⟩⟩

end Sys2Proof.Machine
end

section
/-! PROOFS. The family of 43_control.md: what selects BR, JMP, JSR and JSRR, and the PC that each leaves with its frame.
That a write of the PC changes nothing else is said once (`State.jumpResult_withPc`), and once more after the link
(`State.callResult_link`), so that each statement comes down to its target. -/

namespace Sys2Proof.Machine

/-! ## The words that select each instruction (R51, R61) -/

section
variable {w : Word}

theorem decode_br (hop : opcodeField w = 0x0) : decode w = .br (nBit w) (zBit w) (pBit w) (off9Field w) := by
  rw [decode, decodeOpcode, hop]; rfl

theorem decode_jmp (hop : opcodeField w = 0xC) : decode w = .jmp (sr1Field w) := by
  rw [decode, decodeOpcode, hop]; rfl

theorem decode_jsr (hop : opcodeField w = 0x4) (hl : jsrModeBit w = true) : decode w = .jsr (off11Field w) := by
  rw [decode, decodeOpcode, hop, hl]; rfl

theorem decode_jsrr (hop : opcodeField w = 0x4) (hl : jsrModeBit w = false) : decode w = .jsrr (sr1Field w) := by
  rw [decode, decodeOpcode, hop, hl]; rfl

end

/-! ## A jump and a call with their frames (R86) -/

/-- A write of the PC alone, whatever form the target is given in. -/
theorem State.jumpResult_withPc (s : State) {a target : Word} (ha : a = target) :
    JumpResult target s { s with pc := a } where
  pc := ha
  regs _ := rfl
  cc := rfl
  memory _ := rfl
  ports := ⟨rfl, rfl, rfl⟩
  rest := ⟨rfl, rfl, rfl, rfl, rfl, rfl⟩

theorem State.reg_link_r7 (s : State) : s.link.reg .r7 = s.pc :=
  s.reg_setReg_same .r7 s.pc

theorem State.reg_link_other (s : State) {r : Reg} (h : r ≠ .r7) : s.link.reg r = s.reg r :=
  s.reg_setReg_other s.pc h

/-- The link, and a write of the PC after it, whatever form the target is given in. -/
theorem State.callResult_link (s : State) {a target : Word} (ha : a = target) :
    CallResult target s { s.link with pc := a } where
  pc := ha
  link := s.reg_link_r7
  others _ := s.reg_link_other
  cc := rfl
  memory _ := rfl
  ports := ⟨rfl, rfl, rfl⟩
  rest := ⟨rfl, rfl, rfl, rfl, rfl, rfl⟩

/-! ## The condition of BR and the target of JSR (R110, R112) -/

/-- The match in the words of R110: a bit that is set, and the value of CC that it tests. -/
theorem condMatches_iff (n z p : Bool) (c : CC) :
    condMatches n z p c = true ↔ (n = true ∧ c = .n) ∨ (z = true ∧ c = .z) ∨ (p = true ∧ c = .p) := by
  cases c <;> simp [condMatches]

/-- The sum modulo 2^16 on the numbers of its two words. -/
theorem State.eaPc11_eq_ofNat (s : State) (off11 : BitVec 11) :
    s.eaPc11 off11 = BitVec.ofNat 16 (s.pc.toNat + (sext off11).toNat) :=
  BitVec.add_def _ _

/-! ## The statements -/

/-- Settles O21, from the two values of the match: a BR that falls through leaves the PC it found. -/
theorem brJumpsWhenAConditionBitMatches : Obligations.BrJumpsWhenAConditionBitMatches := by
  refine ⟨fun _ => decode_br, fun n z p off9 s => ?_⟩
  rw [← condMatches_iff]
  cases hm : condMatches n z p s.cc with
  | false => exact ⟨s, execBr_of_no_match hm, nofun, fun _ => s.jumpResult_withPc rfl⟩
  | true =>
    exact ⟨_, execBr_of_match hm, fun _ => s.jumpResult_withPc (s.eaPc_eq_ofNat off9), fun h => absurd rfl h⟩

/-- Settles O22: JMP is one write of the PC. -/
theorem jmpJumpsToTheRegister : Obligations.JmpJumpsToTheRegister :=
  ⟨fun _ => decode_jmp, fun _ s => ⟨_, rfl, s.jumpResult_withPc rfl⟩⟩

/-- Settles O23: the target is the sum of the incremented PC and the extended offset modulo 2^16. -/
theorem jsrLinksAndJumps : Obligations.JsrLinksAndJumps :=
  ⟨fun _ => decode_jsr, fun off11 s => ⟨_, rfl, s.callResult_link (s.eaPc11_eq_ofNat off11)⟩⟩

/-- Settles O24: the target is read after the link, which R7 alone shows. -/
theorem jsrrLinksThenReadsTheTarget : Obligations.JsrrLinksThenReadsTheTarget := by
  refine ⟨fun _ => decode_jsrr, fun base s => ⟨_, rfl, fun hne => ?other, fun heq => ?r7⟩⟩
  case other => exact s.callResult_link (s.reg_link_other hne)
  case r7 => subst heq; exact s.callResult_link s.reg_link_r7

end Sys2Proof.Machine
end

section
/-! PROOFS. The family of 44_trap_system.md: what selects each trap routine, what each does to R0 and the two ports, and
what no TRAP does. The result of each routine with its frame is said once for output (`State.outputResult_charsOut`) and
once for a key taken (`State.inputResult_takeKey`); what the ports have to do with every instruction is said by two
descriptions of `exec`, one for other pending keys and one for another display. -/

namespace Sys2Proof.Machine

/-! ## The words that select each row of TRAP (R59, R61, R120) -/

theorem decodeOpcode_trap {w : Word} (hop : opcodeField w = 0xF) : decodeOpcode w = .trap (vectorField w) := by
  rw [decodeOpcode, hop]; rfl

/-- A TRAP word selects the row of its vector. -/
theorem decode_trap {w : Word} {v : BitVec 8} (hop : opcodeField w = 0xF) (hv : vectorField w = v) :
    decode w = trapRow v := by
  rw [decode, decodeOpcode_trap hop, hv]; rfl

/-- Settles O5, each word by running the decoder on it. -/
theorem sampleWordsDecode : Obligations.SampleWordsDecode := by
  unfold Obligations.SampleWordsDecode
  decide

/-! ## The rows that do nothing (R125, R127, R128, R129) -/

theorem isOtherVector_iff (v : BitVec 8) : isOtherVector v = true ↔ v.toNat < 0x20 ∨ 0x25 < v.toNat := by
  simp [isOtherVector]

theorem exec_trapRow_of_other {v : BitVec 8} (hv : v.toNat < 0x20 ∨ 0x25 < v.toNat) (s : State) :
    exec (trapRow v) s = .next s := by
  rw [trapRow_of_other ((isOtherVector_iff v).mpr hv)]; rfl

/-- PUTSP and every vector outside the six named ones. -/
theorem exec_trapRow_of_noOp {v : BitVec 8} (hv : v.toNat < 0x20 ∨ 0x23 < v.toNat) (hhalt : v.toNat ≠ 0x25)
    (s : State) : exec (trapRow v) s = .next s := by
  by_cases hputsp : v.toNat = 0x24
  · obtain rfl : v = 0x24 := BitVec.eq_of_toNat_eq hputsp
    rfl
  · exact exec_trapRow_of_other (by omega) s

/-- The words of RTI, of the reserved opcode and of the TRAPs that do nothing, by their numbers. -/
theorem exec_decode_of_noOp {w : Word}
    (hw : w.toNat / 4096 = 0x8 ∨ w.toNat / 4096 = 0xD ∨
      (w.toNat / 4096 = 0xF ∧ (w.toNat % 256 < 0x20 ∨ 0x23 < w.toNat % 256) ∧ w.toNat % 256 ≠ 0x25))
    (s : State) : exec (decode w) s = .next s := by
  have hop {b : BitVec 4} (h : w.toNat / 4096 = b.toNat) : opcodeField w = b :=
    BitVec.eq_of_toNat_eq ((toNat_opcodeField w).trans h)
  rcases hw with hrti | hres | ⟨htrap, hv, hhalt⟩
  · exact exec_of_rti_or_reserved (.inl (by rw [opcode_decode, hop (b := 0x8) hrti]; rfl)) s
  · exact exec_of_rti_or_reserved (.inr (by rw [opcode_decode, hop (b := 0xD) hres]; rfl)) s
  · have hvec : (vectorField w).toNat = w.toNat % 256 := toNat_lowField w 8
    rw [decode_trap (hop (b := 0xF) htrap) rfl]
    rw [← hvec] at hv hhalt
    exact exec_trapRow_of_noOp hv hhalt s

theorem State.fetch_of_finished {s : State} (h : s.unfinished = false) :
    s.fetch = { s with ir := s.memRead s.pc, pc := s.pc + 1 } := by
  simp [State.fetch, h]

/-- Settles O31: a step over such a word leaves what the fetch leaves. -/
theorem noOpsChangeOnlyIrAndPc : Obligations.NoOpsChangeOnlyIrAndPc := by
  refine ⟨fun _ _ => ⟨rfl, rfl, rfl, rfl⟩, fun s hh hf hw => ?_⟩
  rw [← State.fetch_of_finished hf]
  exact step_of_finished hh rfl (exec_decode_of_noOp hw s.fetch) s.fetch_unfinished

/-! ## Output with its frame (R122, R123, R126) -/

theorem State.outputResult_charsOut (s : State) (vs : List Word) : OutputResult vs s (s.charsOut vs) where
  display := rfl
  keys := rfl
  prompted := rfl
  regs _ := rfl
  cc := rfl
  pc := rfl
  memory _ := rfl
  rest := ⟨rfl, rfl, rfl, rfl, rfl, rfl⟩

/-- Settles O27: OUT is one value written. -/
theorem outWritesOneCharacter : Obligations.OutWritesOneCharacter :=
  ⟨fun _ => decode_trap, fun s => ⟨_, rfl, s.outputResult_charsOut [s.reg .r0]⟩⟩

/-- Settles O30: HALT is the banner written, but for `halted`. -/
theorem haltWritesTheBannerAndHalts : Obligations.HaltWritesTheBannerAndHalts :=
  ⟨fun _ => decode_trap, fun s => ⟨_, rfl, rfl, s.outputResult_charsOut Config.haltBanner⟩⟩

/-- The string at an address is the words before the first zero word. -/
theorem State.stringAt_of_first_zero {s : State} {a : Word} {n : Nat} (hn : n < 65536)
    (hne : ∀ j < n, s.memRead (a + BitVec.ofNat 16 j) ≠ 0) (hz : s.memRead (a + BitVec.ofNat 16 n) = 0) :
    s.mem.stringAt a = (wordsFrom s a n, true) :=
  Memory.stringFrom_ends s.mem n Memory.lap a hn hne hz

/-- Settles O28, from the string at R0. -/
theorem putsWritesTheString : Obligations.PutsWritesTheString := by
  refine ⟨fun _ => decode_trap, fun n s hn hne hz => ?_⟩
  have hstring := State.stringAt_of_first_zero hn hne hz
  refine ⟨_, execPuts_of_ended (by rw [hstring]), ?_⟩
  rw [hstring]
  exact s.outputResult_charsOut _

/-! ## A key taken with its frame (R121, R124) -/

/-- A key in R0 and a longer display, whatever form the display is given in. -/
theorem State.inputResult_takeKey (s : State) (k : Word) (ks : List Word) (p : Bool) {d vs : List Word}
    (hd : d = s.display ++ vs) :
    InputResult k ks vs s { s.setReg .r0 k with keys := ks, display := d, prompted := p } where
  value := s.reg_setReg_same .r0 k
  others _ hr := s.reg_setReg_other k hr
  keys := rfl
  display := hd
  cc := rfl
  pc := rfl
  memory _ := rfl
  rest := ⟨rfl, rfl, rfl, rfl, rfl, rfl⟩

/-- Settles O26: GETC takes the key and leaves the display as it was. -/
theorem getcTakesAKey : Obligations.GetcTakesAKey :=
  ⟨fun _ => decode_trap, fun k ks s hk =>
    ⟨_, execGetc_of_key hk, s.inputResult_takeKey k ks s.prompted (List.append_nil s.display).symm, rfl⟩⟩

/-- Settles O29, by whether the prompt is written already. -/
theorem inPromptsTakesAKeyAndEchoes : Obligations.InPromptsTakesAKeyAndEchoes := by
  refine ⟨fun _ => decode_trap, fun k ks s hk =>
    ⟨_, execIn_of_key hk, fun hp => ?fresh, fun hp => ?waiting, rfl⟩⟩
  case fresh =>
    rw [State.promptOnce_of_not_prompted hp]
    exact s.inputResult_takeKey k ks false (List.append_assoc s.display Config.inPrompt [k])
  case waiting =>
    rw [State.promptOnce_of_prompted hp]
    exact s.inputResult_takeKey k ks false rfl

/-! ## The dispatch (R120) -/

/-- Where some word is zero, every string ends: the first zero word from its address on is at most one lap away. -/
theorem State.stringAt_ends {s : State} (hz : ∃ b, s.memRead b = 0) (a : Word) : (s.mem.stringAt a).2 = true := by
  obtain ⟨b, hb⟩ := hz
  have hreach : s.memRead (a + BitVec.ofNat 16 (b - a).toNat) = 0 := by
    rwa [BitVec.ofNat_toNat, BitVec.setWidth_eq, BitVec.add_comm, BitVec.sub_add_cancel]
  have hex : ∃ n, s.memRead (a + BitVec.ofNat 16 n) = 0 := ⟨_, hreach⟩
  have hlap : Nat.find hex < 65536 := (Nat.find_min' hex hreach).trans_lt (b - a).isLt
  rw [State.stringAt_of_first_zero hlap (fun _ => Nat.find_min hex) (Nat.find_spec hex)]

/-- With a key pending and a zero word in memory nothing holds an instruction up. -/
theorem exec_finished {i : Instr} {s t : State} (hs : s.unfinished = false) (hk : s.keys ≠ [])
    (hz : ∃ a, s.memRead a = 0) (h : exec i s = .next t) : t.unfinished = false := by
  rw [← Bool.not_eq_true]
  intro ht
  rcases exec_unfinished_cases hs h ht with ⟨-, hnone, -⟩ | ⟨-, hnone, -⟩ | ⟨-, hendless, -⟩
  · exact hk hnone
  · exact hk hnone
  · exact absurd ((State.stringAt_ends hz (s.reg .r0)).symm.trans hendless) nofun

/-- Settles O25: the general row is the row of its vector (`exec_trap`). -/
theorem trapDispatchesOnItsVector : Obligations.TrapDispatchesOnItsVector := by
  refine ⟨fun _ => decodeOpcode_trap,
    fun s => ⟨exec_trap 0x20 s, exec_trap 0x21 s, exec_trap 0x22 s, exec_trap 0x23 s, exec_trap 0x24 s,
      exec_trap 0x25 s⟩,
    fun v s hv => (exec_trap v s).trans (exec_trapRow_of_other hv s), fun v s hs hk hz => ?_⟩
  obtain ⟨t, ht⟩ := exec_next (.trap v) s
  exact ⟨t, ht, exec_finished hs hk hz ht⟩

/-! ## What no TRAP does (R131) -/

section
variable {i : Instr} (hop : i.opcode = .trap)
include hop

theorem ccDestination_of_trap : ccDestination i = none := by
  cases i with
  | trap | getc | out | puts | inChar | putsp | halt | trapOther => rfl
  | _ => cases hop

theorem storeAddress_of_trap (s : State) : storeAddress i s = none := by
  cases i with
  | trap | getc | out | puts | inChar | putsp | halt | trapOther => rfl
  | _ => cases hop

/-- R0 is the only register that a TRAP can write (D8). -/
theorem eq_r0_of_mem_regsWritten {r : Reg} (hr : r ∈ regsWritten i) : r = .r0 := by
  induction i using Instr.byRow with
  | trap v ih => exact ih (opcode_trapRow v) (regsWritten_trapRow v ▸ hr)
  | row i hi =>
    cases i with
    | trap v => exact absurd rfl (hi v)
    | getc | inChar => exact List.mem_singleton.mp hr
    | out | puts | putsp | halt | trapOther => cases hr
    | _ => cases hop

theorem exec_pc_of_trap {s t : State} (h : exec i s = .next t) : t.pc = s.pc := by
  induction i using Instr.byRow with
  | trap v ih =>
    rw [exec_trap] at h
    exact ih (opcode_trapRow v) h
  | row i hi =>
    cases i with
    | trap v => exact absurd rfl (hi v)
    | getc => rcases execGetc_cases h with ⟨-, rfl⟩ | ⟨k, ks, -, rfl⟩ <;> rfl
    | inChar => rcases execIn_cases h with ⟨-, rfl⟩ | ⟨k, ks, -, rfl⟩ <;> exact State.promptOnce_pc s
    | puts => rcases execPuts_cases h with ⟨-, rfl⟩ | ⟨-, rfl⟩ <;> rfl
    | out | putsp | halt | trapOther => cases h; rfl
    | _ => cases hop

end

/-- An instruction without a written register leaves the register file as it was. -/
theorem exec_regs_of_none_written {i : Instr} {s t : State} (hi : regsWritten i = []) (h : exec i s = .next t) :
    t.regs = s.regs :=
  RegFile.ext_get fun _ => exec_reg_of_not_written h (hi ▸ List.not_mem_nil)

/-- Settles O41, from the tables of R11, R14 and R37 at the TRAP rows, and the PC. -/
theorem trapsLeaveRegistersCcAndMemoryAlone : Obligations.TrapsLeaveRegistersCcAndMemoryAlone := by
  refine fun i s t hop h => ⟨exec_pc_of_trap hop h, exec_cc_of_none (ccDestination_of_trap hop) h,
    exec_mem_of_not_store (storeAddress_of_trap hop s) h,
    fun r hr => exec_reg_of_not_written h (mt (eq_r0_of_mem_regsWritten hop) hr), fun hi => ?_⟩
  refine exec_regs_of_none_written ?_ h
  rcases hi with rfl | rfl | rfl | rfl <;> rfl

/-! ## The ports (R130) -/

/-- An instruction other than GETC and IN carries any pending keys through. -/
theorem exec_withKeys {i : Instr} {s t : State} (ks : List Word) (hgetc : resolveTrap i ≠ .getc)
    (hin : resolveTrap i ≠ .inChar) (h : exec i s = .next t) :
    exec i { s with keys := ks } = .next { t with keys := ks } := by
  induction i using Instr.byRow with
  | trap v ih =>
    rw [exec_trap] at h ⊢
    rw [resolveTrap_trapRow] at ih
    exact ih hgetc hin h
  | row i hi =>
    cases i with
    | trap v => exact absurd rfl (hi v)
    | getc => exact absurd rfl hgetc
    | inChar => exact absurd rfl hin
    | br n z p off9 =>
      rcases execBr_cases h with ⟨hm, rfl⟩ | ⟨hm, rfl⟩
      · exact execBr_of_match hm
      · exact execBr_of_no_match hm
    | puts =>
      rcases execPuts_cases h with ⟨hc, rfl⟩ | ⟨hc, rfl⟩
      · exact execPuts_of_ended hc
      · exact execPuts_of_endless hc
    | _ => cases h; rfl

/-- The same keys as before are one choice of the keys to carry through. -/
theorem exec_keys {i : Instr} {s t : State} (hgetc : resolveTrap i ≠ .getc) (hin : resolveTrap i ≠ .inChar)
    (h : exec i s = .next t) : t.keys = s.keys := by
  have ht := h.symm.trans (exec_withKeys s.keys hgetc hin h)
  injection ht with ht
  have hkeys := congrArg State.keys ht
  exact hkeys

/-- IN's prompt, unless it is written already (R124). -/
def State.promptDue (s : State) : List Word := if s.prompted then [] else Config.inPrompt

theorem State.promptOnce_withDisplay (s : State) (d : List Word) :
    State.promptOnce { s with display := d } = { s.promptOnce with display := d ++ s.promptDue } := by
  cases hp : s.prompted <;> simp [State.promptOnce, State.promptDue, State.charsOut, hp]

/-- What an instruction writes to the display (R122 to R124, R126). -/
def outputOf (i : Instr) (s : State) : List Word :=
  match resolveTrap i with
  | .out => [s.reg .r0]
  | .puts => (s.mem.stringAt (s.reg .r0)).1
  | .inChar => s.promptDue ++ s.keys.take 1
  | .halt => Config.haltBanner
  | _ => []

theorem outputOf_trapRow (v : BitVec 8) (s : State) : outputOf (trapRow v) s = outputOf (.trap v) s := by
  rw [outputOf, resolveTrap_trapRow]; rfl

theorem outputOf_of_silent {i : Instr} (s : State) (hout : resolveTrap i ≠ .out) (hputs : resolveTrap i ≠ .puts)
    (hin : resolveTrap i ≠ .inChar) (hhalt : resolveTrap i ≠ .halt) : outputOf i s = [] := by
  rw [outputOf]
  split <;> trivial

/-- Whatever is on the display, an instruction does the same to the rest of the state and adds its output. -/
theorem exec_withDisplay {i : Instr} {s t : State} (d : List Word) (h : exec i s = .next t) :
    exec i { s with display := d } = .next { t with display := d ++ outputOf i s } := by
  induction i using Instr.byRow with
  | trap v ih =>
    rw [exec_trap] at h ⊢
    rw [← outputOf_trapRow]
    exact ih h
  | row i hi =>
    have hsilent (ho : outputOf i s = []) : d ++ outputOf i s = d := by rw [ho, List.append_nil]
    cases i with
    | trap v => exact absurd rfl (hi v)
    | out | halt => cases h; rfl
    | puts =>
      rcases execPuts_cases h with ⟨hc, rfl⟩ | ⟨hc, rfl⟩
      · exact execPuts_of_ended hc
      · exact execPuts_of_endless hc
    | inChar =>
      rcases execIn_cases h with ⟨hk, rfl⟩ | ⟨k, ks, hk, rfl⟩
      · have hout : outputOf .inChar s = s.promptDue := by simp [outputOf, resolveTrap, hk]
        rw [exec, execIn_of_no_key (s := { s with display := d }) hk, State.promptOnce_withDisplay, hout]
        rfl
      · have hout : d ++ outputOf .inChar s = d ++ s.promptDue ++ [k] := by simp [outputOf, resolveTrap, hk]
        rw [exec, execIn_of_key (s := { s with display := d }) hk, State.promptOnce_withDisplay, hout]
        rfl
    | getc =>
      rw [hsilent rfl]
      rcases execGetc_cases h with ⟨hk, rfl⟩ | ⟨k, ks, hk, rfl⟩
      · exact execGetc_of_no_key hk
      · exact execGetc_of_key hk
    | br n z p off9 =>
      rw [hsilent rfl]
      rcases execBr_cases h with ⟨hm, rfl⟩ | ⟨hm, rfl⟩
      · exact execBr_of_match hm
      · exact execBr_of_no_match hm
    | _ =>
      rw [hsilent rfl]
      cases h
      rfl

/-- The display as it was before is one choice of what is on it. -/
theorem exec_display {i : Instr} {s t : State} (h : exec i s = .next t) :
    t.display = s.display ++ outputOf i s := by
  have ht := h.symm.trans (exec_withDisplay s.display h)
  injection ht with ht
  exact congrArg State.display ht

/-- Settles O42, from other pending keys and another display before every instruction. -/
theorem portsAreUsedByTheirTrapsAlone : Obligations.PortsAreUsedByTheirTrapsAlone := by
  refine ⟨fun i s t ks hgetc hin h => ⟨exec_keys hgetc hin h, exec_withKeys ks hgetc hin h⟩,
    fun i s t hout hputs hin hhalt h => ?_,
    fun i s t d h => ⟨outputOf i s, exec_display h, exec_withDisplay d h⟩⟩
  rw [exec_display h, outputOf_of_silent s hout hputs hin hhalt, List.append_nil]

end Sys2Proof.Machine
end

section
/-! PROOFS. The family of 70_reset_and_hazards.md: the launch state, the host's moves, and the access counts. The counts
are read off the control signals; `cases` on the instruction holds each of them to what the families of the registers,
memory and the ports say that the instruction changes. -/

namespace Sys2Proof.Machine

/-! ## The launch state (R22, R160) -/

/-- An address behind the words stored from `a` on reads as before, in any list (`Memory.read_writeWords_outside` asks
for a canonical one). -/
theorem Memory.read_writeWords_beyond {ws : List Word} {a b : Word} (m : Memory) (hb : ws.length ≤ (b - a).toNat) :
    (m.writeWords a ws).read b = m.read b := by
  induction ws generalizing m a with
  | nil => rfl
  | cons w ws ih =>
    rw [List.length_cons] at hb
    have hne : b ≠ a := by
      rintro rfl
      simp at hb
    have hnext := toNat_sub_succ hne
    rw [Memory.writeWords, ih _ (by omega), Memory.read_write_other w m hne]

/-- The empty list is a memory of zeros (R22). -/
theorem Memory.read_nil (a : Word) : Memory.read [] a = 0 := by
  have hbytes : wordOfBytes Memory.unlisted Memory.unlisted = 0 := by decide
  exact hbytes

/-- Everything a load can do, in the terms of the stream: it is an origin and `n` more words that fit behind it, and
the state has them in place. -/
theorem State.load_cases_of_stream {s t : State} {bytes : List Byte} (h : s.load bytes = .ok t) :
    ∃ n, bytes.length = 2 * (n + 1) ∧ (imageWord bytes 0).toNat + n ≤ 65536 ∧
      t = s.place (imageWord bytes 0) (imageWords bytes n) := by
  have hok : ¬(bytes.length % 2 = 1 ∨ bytes = []) := fun hbad => by
    obtain ⟨e, he⟩ := s.load_error_of_odd_or_empty hbad
    cases h.symm.trans he
  rw [← List.length_eq_zero_iff] at hok
  obtain ⟨n, hn⟩ : ∃ n, bytes.length = 2 * (n + 1) := ⟨bytes.length / 2 - 1, by omega⟩
  rw [State.load_of_even s hn] at h
  split at h
  next hfits => cases h; exact ⟨n, hn, hfits, rfl⟩
  next => cases h

/-- Settles O50. Placing the image changes the PC and memory alone, and memory at the addresses of the image alone. -/
theorem launchStateFollowsResetAndLoad : Obligations.LaunchStateFollowsResetAndLoad := by
  refine ⟨fun o bytes s h => ?_, rfl, fun r => by cases r <;> rfl, Memory.read_nil⟩
  obtain ⟨n, hlen, hfits, rfl⟩ := State.load_cases_of_stream h
  refine ⟨rfl, rfl, rfl, rfl, rfl, rfl, rfl, rfl, rfl, rfl, ⟨rfl, rfl⟩, fun a ha => ?_⟩
  refine Memory.read_writeWords_beyond o.mem ?_
  rw [length_imageWords]
  bv_omega

/-! ## The host's moves (R167) -/

/-- A load between steps keeps the invariant: no mark is set, so only the form of memory is asked for. -/
theorem State.inv_load {s t : State} {bytes : List Byte} (hs : s.Inv) (hb : s.Between) (h : s.load bytes = .ok t) :
    t.Inv := by
  obtain ⟨hmem, -, -⟩ := hs
  obtain ⟨hu, hp⟩ := hb
  obtain ⟨origin, ws, -, -, rfl⟩ := State.load_cases h
  exact ⟨Memory.wf_writeWords ws origin hmem, fun ht => absurd (hu.symm.trans ht) nofun,
    fun ht => absurd (hp.symm.trans ht) nofun⟩

/-- Settles O53. The moves other than `load` write the keys and the host-owned bits, which the invariant does not
read. -/
theorem hostMovesKeepTheInvariant : Obligations.HostMovesKeepTheInvariant :=
  ⟨fun _ _ _ => State.inv_load, fun _ _ _ _ _ hs => ⟨hs, hs, hs, hs⟩⟩

/-! ## The access counts (R166) -/

/-- The counted outputs, less a prompt that is written already, are the values that an instruction writes, if it is no
IN that waits. -/
theorem length_outputOf {i : Instr} {s : State} (hi : WellFormed i = true) (hkeys : i = .inChar → s.keys ≠ []) :
    (outputOf i s).length + (if i = .inChar ∧ s.prompted = true then Config.inPrompt.length else 0) =
      (accessCounts i s).charsOut := by
  by_cases hin : i = .inChar
  · subst hin
    obtain ⟨k, ks, hk⟩ := List.exists_cons_of_ne_nil (hkeys rfl)
    have hcount : (accessCounts .inChar s).charsOut = Config.inPrompt.length + 1 := rfl
    have hout : outputOf .inChar s = s.promptDue ++ [k] := by simp [outputOf, resolveTrap, hk]
    rw [hcount, hout, State.promptDue]
    cases s.prompted <;> simp [Nat.add_comm]
  · rw [if_neg fun h => hin h.1]
    cases i with
    | trap v => cases hi
    | inChar => exact absurd rfl hin
    | _ => rfl

section
variable {i : Instr} {s t : State} (hi : WellFormed i = true) (h : exec i s = .next t) (hf : t.unfinished = false)
include hi h hf

/-- A finished instruction has taken the counted keys. -/
theorem length_keys_of_finished : s.keys.length = t.keys.length + (accessCounts i s).keysIn := by
  have hrow := resolveTrap_of_wellFormed hi
  cases i with
  | trap v => cases hi
  | getc =>
    rcases execGetc_cases h with ⟨-, rfl⟩ | ⟨k, ks, hk, rfl⟩
    · cases hf
    · exact congrArg List.length hk
  | inChar =>
    rcases execIn_cases h with ⟨-, rfl⟩ | ⟨k, ks, hk, rfl⟩
    · cases hf
    · exact congrArg List.length hk
  | _ => exact congrArg List.length (exec_keys (hrow.trans_ne nofun) (hrow.trans_ne nofun) h).symm

/-- A finished instruction has written the counted outputs, less a prompt that was written before. -/
theorem length_display_of_finished :
    t.display.length + (if i = .inChar ∧ s.prompted = true then Config.inPrompt.length else 0) =
      s.display.length + (accessCounts i s).charsOut := by
  have hkeys : i = .inChar → s.keys ≠ [] := by
    rintro rfl hk
    have hlen := length_keys_of_finished hi h hf
    rw [hk] at hlen
    cases hlen
  rw [exec_display h, List.length_append, Nat.add_assoc, length_outputOf hi hkeys]

end

section
variable {i : Instr} (hi : WellFormed i = true)
include hi

/-- The counted register writes are those of R11's table. -/
theorem accessCounts_regWrites (s : State) : (accessCounts i s).regWrites = (regsWritten i).length := by
  cases i with
  | trap v => cases hi
  | _ => rfl

/-- One memory write is counted for the instructions with a store address (R37), none for the others. -/
theorem accessCounts_writes (s u : State) :
    (accessCounts i s).writes = if (storeAddress i u).isSome then 1 else 0 := by
  cases i with
  | trap v => cases hi
  | _ => rfl

end

/-- A byte outside the word at the store's address, if there is one, is left alone. -/
theorem exec_readByte_of_outside {i : Instr} {s t : State} {q : Nat} (h : exec i s = .next t)
    (hq : ∀ a, storeAddress i s = some a → q ≠ Memory.position a ∧ q ≠ Memory.position a + 1) :
    t.mem.readByte q = s.mem.readByte q := by
  by_contra hne
  obtain ⟨a, ha, hin⟩ := storeAddress_of_changed_byte h hne
  exact not_or.mpr (hq a ha) hin

/-- Settles O55: a finished step is its decoded instruction on the fetched state, where every count is that of the
state before the fetch. -/
theorem accessCountsBoundTheChanges : Obligations.AccessCountsBoundTheChanges := by
  intro s t h hf i
  have hi : WellFormed i = true := wellFormed_decode _
  have hexec : exec i s.fetch = .next t := exec_of_finished_step h hf
  have hwrites := accessCounts_writes hi s s.fetch
  refine ⟨length_display_of_finished (s := s.fetch) hi hexec hf, length_keys_of_finished (s := s.fetch) hi hexec hf,
    accessCounts_regWrites hi s, fun r => exec_reg_of_not_written (s := s.fetch) hexec, ?_, ?_,
    fun q => exec_readByte_of_outside hexec⟩
  · rw [hwrites]
    cases (storeAddress i s.fetch).isSome <;> decide
  · rw [← Option.isSome_iff_exists, hwrites]
    cases (storeAddress i s.fetch).isSome <;> decide

end Sys2Proof.Machine
end
